-- ==== Sys2Proof/Word.lean ====
section
/-! DEFINITION. The two word types of the block: a 32-bit register or physical address, and a byte. -/

namespace Sys2Proof

/-- A host-visible register, a latch, or a physical address of the memory master port
(10_state.md R22; 00_scope.md R8: `ADDR_W` is fixed at 32). Unsigned (00_scope.md R10). -/
abbrev Word := BitVec 32

/-- One byte of the external memory or of the sink stream. -/
abbrev Byte := BitVec 8

end Sys2Proof
end

