-- ==== Sys2Proof/Config.lean ====
section
/-! DEFINITION. What an implementation fixes (00_scope.md R8) and the values the spec leaves free ("draws").
The parameters are plain data that State carries, so that every statement about every state holds for every legal
parameter (assumption log 1). The draws are constants with no body: nothing can be proved of their values. -/

namespace Sys2Proof

/-- `WORD_BYTES`: the legal widths of one external-memory word (00_scope.md R8). -/
inductive WordBytes where
  | one
  | two
  | four
  deriving DecidableEq, Repr

/-- The number of bytes a `WORD_BYTES` value stands for. -/
def WordBytes.count : WordBytes → Nat
  | .one => 1
  | .two => 2
  | .four => 4

/-- `TOKEN_MODE`: the export token's format (00_scope.md R8; 43_bulk.md R177, R178). -/
inductive TokenMode where
  | fixed
  | minimal
  deriving DecidableEq, Repr

/-- `MISALIGNED_MODE`: what the platform does with a misaligned word access (20_memory.md R66).
`openDraw` is the spec's `OPEN`; `splitLE` its `SPLIT_LE`. -/
inductive MisalignedMode where
  | openDraw
  | splitLE
  deriving DecidableEq, Repr

/-- `HOST_NARROW`: its one legal value is the spec's `OPEN`, under which a model refuses (00_scope.md R8; 40_host_port.md R110). -/
inductive HostNarrow where
  | openRefuse
  deriving DecidableEq, Repr

/-- The implementation parameters of 00_scope.md R8. `ADDR_W` = 32 is the width of `Word`, and `CMD_OP_BITS` = 4 the
width of the decoder's opcode field. `hostBase` is `HOST_BASE`. -/
structure Params where
  wordBytes      : WordBytes
  tickBits       : Nat
  tokenMode      : TokenMode
  misalignedMode : MisalignedMode
  hostNarrow     : HostNarrow
  hostBase       : Nat
  deriving DecidableEq, Repr

/-- `WORD_BITS = 8 × WORD_BYTES` (00_scope.md R8). -/
def Params.wordBits (p : Params) : Nat := 8 * p.wordBytes.count

/-- The values 00_scope.md R8 takes by default. `HOST_BASE` is open there; 0 stands for it here (assumption log 2). -/
def Params.default : Params :=
  { wordBytes := .two, tickBits := 32, tokenMode := .fixed, misalignedMode := .openDraw,
    hostNarrow := .openRefuse, hostBase := 0 }

/-- The byte the external memory's initial image holds at an address (20_memory.md R69: an argument of the run, fixed per
byte). Free: no body (assumption log 4). -/
opaque Config.initialImage : Nat → Byte

/-- The `n`-th drawn word: the result of an out-of-window read (20_memory.md R68) or of a misaligned read under `OPEN`
(R66). Free: no body (assumption log 5). -/
opaque Config.drawnWord : Nat → Word

/-- The `n`-th drawn byte: what a misaligned write under `OPEN` leaves in a byte (20_memory.md R66). Free: no body
(assumption log 5). -/
opaque Config.drawnByte : Nat → Byte

/-- The `n`-th sample of the millisecond tick (60_exceptions.md R214, R216). Free: no body (assumption log 6). -/
opaque Config.tick : Nat → Word

end Sys2Proof
end

