-- ==== Sys2Proof/Syntax.lean ====
section
/-! DEFINITION. What a host can say to the block: the seven commands (one constructor per row of the opcode table), the
fields of a command word, a host register access, and the host-script forms of 30_encoding.md R96 and R97. -/

namespace Sys2Proof

/-- The commands of 30_encoding.md R92. A command word carries no operand (R91), so no constructor has an argument: the
operands are the latches `lat.a`, `lat.b`, `lat.c` (R93). -/
inductive Instr where
  /-- CONFIG, 41_construction.md R130. -/
  | config
  /-- WRITE, 42_word_access.md R140. -/
  | write
  /-- READI, 42_word_access.md R145. -/
  | readi
  /-- READO, 42_word_access.md R150. -/
  | reado
  /-- FILLZ, 43_bulk.md R170. -/
  | fillz
  /-- EXPORT, 43_bulk.md R175. -/
  | exportText
  /-- READC, 42_word_access.md R160. -/
  | readc
  deriving DecidableEq, Repr

/-- The two fields of a 32-bit command word, legal or not (30_encoding.md R91). -/
structure CommandFields where
  rsv : BitVec 28
  op  : BitVec 4
  deriving DecidableEq, Repr

/-- The registers of the host window (10_state.md R22). `reserved` is each of the offsets 0x30 to 0x3C (R33). -/
inductive HostReg where
  | cmd
  | status
  | opa
  | opb
  | opc
  | result
  | capacity
  | base
  | increment
  | cursor
  | duration
  | params
  | reserved
  deriving DecidableEq, Repr

/-- The direction of a host access, with the data a write carries (30_encoding.md R98). -/
inductive AccessKind where
  | read
  | write (data : Word)
  deriving DecidableEq, Repr

/-- One host access at a platform address, of some size in bytes (40_host_port.md R110). Most such accesses are not of the
admitted form. -/
structure HostAccess where
  addr : Nat
  size : Nat
  kind : AccessKind
  deriving DecidableEq, Repr

/-- One line of a host script: a register access (`WR`, `RD`) or the polling loop `WAIT` (30_encoding.md R96). -/
inductive HostOp where
  | access (a : HostAccess)
  | wait
  deriving DecidableEq, Repr

/-- The pseudo-instructions of 30_encoding.md R97. -/
inductive Pseudo where
  | config (cap base inc : Word)
  | write (v : Word)
  | readi (i : Word)
  | reado (off : Word)
  | fillz
  | exportText
  | readc (i : Word)
  | clrovr
  | check
  deriving DecidableEq, Repr

end Sys2Proof
end

