-- ==== Sys2Proof/WellFormed.lean ====
section
/-! DEFINITION. The checks on what is written in Syntax and Config: a command word's fields, a host access's form, and the
parameters' ranges. A term of `Instr` has no field, so each one is well formed. -/

namespace Sys2Proof

/-- A command has no operand field (30_encoding.md R91): nothing about a term of `Instr` can be ill formed. -/
def Instr.wf : Instr → Bool
  | .config => true
  | .write => true
  | .readi => true
  | .reado => true
  | .fillz => true
  | .exportText => true
  | .readc => true

/-- A command word is legal exactly when RSV = 0 and OP is in 0x1 to 0x7 (30_encoding.md R92). -/
def CommandFields.wf (c : CommandFields) : Bool :=
  c.rsv == 0 && (1 ≤ c.op.toNat && c.op.toNat ≤ 7)

/-- The admitted form of a host access: 32 bits wide, aligned, at an offset 0x00 to 0x3C from `HOST_BASE`
(40_host_port.md R110). -/
def HostAccess.wf (hostBase : Nat) (a : HostAccess) : Bool :=
  a.size == 4 && hostBase ≤ a.addr && (a.addr - hostBase) % 4 == 0 && a.addr - hostBase ≤ 0x3C

/-- The range of `TICK_BITS`, the one parameter whose type admits an illegal value (00_scope.md R8). -/
def Params.wf (p : Params) : Bool :=
  1 ≤ p.tickBits && p.tickBits ≤ 32

end Sys2Proof
end

