-- ==== Sys2Proof/Decode.lean ====
section
/-! DEFINITION. The command decoder (30_encoding.md R94), total on every 32-bit word and rejecting by name, and after it
the encoder, written from the opcode map of R92. -/

namespace Sys2Proof

/-- Why a command word is illegal (30_encoding.md R95; the block itself reports one code for both, 40_host_port.md R121). -/
inductive IllegalWord where
  /-- RSV, bits 31:4, is not 0. -/
  | reservedBits
  /-- RSV = 0 and OP is 0x0 or 0x8 to 0xF. -/
  | reservedOpcode
  deriving DecidableEq, Repr

/-- What a command word decodes to. -/
inductive Decoded where
  | command (i : Instr)
  | illegal (why : IllegalWord)
  deriving DecidableEq, Repr

/-- The fields OP = w[3:0] and RSV = w[31:4] (30_encoding.md R91). -/
def commandFields (w : Word) : CommandFields :=
  { rsv := w.extractLsb' 4 28, op := w.extractLsb' 0 4 }

/-- The opcode map, read from OP (30_encoding.md R92, R94). -/
def decodeOp (op : BitVec 4) : Decoded :=
  match op.toNat with
  | 1 => .command .config
  | 2 => .command .write
  | 3 => .command .readi
  | 4 => .command .reado
  | 5 => .command .fillz
  | 6 => .command .exportText
  | 7 => .command .readc
  | _ => .illegal .reservedOpcode

/-- `decode` of 30_encoding.md R94: the reserved bits are tested first. -/
def decode (w : Word) : Decoded :=
  if (commandFields w).rsv = 0 then decodeOp (commandFields w).op else .illegal .reservedBits

/-- The opcode of each command (30_encoding.md R92). -/
def opcode : Instr → BitVec 4
  | .config => 0x1
  | .write => 0x2
  | .readi => 0x3
  | .reado => 0x4
  | .fillz => 0x5
  | .exportText => 0x6
  | .readc => 0x7

/-- The command word of a command: RSV = 0 above OP (30_encoding.md R91). -/
def encode (i : Instr) : Word := (0 : BitVec 28) ++ opcode i

/-- The command this decoder reads from a word numbered as the opcode table numbers it. The block has one command length,
32 bits, written to CMD whole (30_encoding.md R90); bits above `nbits` are 0. -/
def decodeTableWord (nbits w : Nat) : Option Instr :=
  if w % 2 ^ nbits < 2 ^ 32 then
    match decode (BitVec.ofNat 32 (w % 2 ^ nbits)) with
    | .command i => some i
    | .illegal _ => none
  else none

end Sys2Proof
end

