-- ==== Sys2Proof/Machine/State.lean ====
section
/-! DEFINITION. The state of the block and of the agents it meets, as plain data; its value right after reset; and one
named update per field. -/

namespace Sys2Proof.Machine

/-- The codes STATUS.ERR takes at completion (60_exceptions.md R200). Codes 6 to 15 are never produced, so they have no
constructor (93_implementation_defined.md U23). -/
inductive ErrCode where
  | ok
  | invalidConfiguration
  | exportFailed
  | notConfigured
  | illegalCommand
  | indexOutOfRange
  deriving DecidableEq, Repr

/-- The fields of STATUS (10_state.md R23, R34). Its reserved bits read 0 and ignore writes, so they hold nothing. -/
structure Status where
  busy       : Bool
  configured : Bool
  durValid   : Bool
  ovr        : Bool
  err        : ErrCode
  deriving DecidableEq, Repr

/-- The host-visible registers that hold a value of their own, besides STATUS (10_state.md R24 to R30). CMD holds nothing
(R31) and PARAMS is computed from the parameters (R32). -/
structure Regs where
  opa       : Word
  opb       : Word
  opc       : Word
  result    : Word
  capacity  : Word
  base      : Word
  increment : Word
  cursor    : Word
  duration  : Word
  deriving DecidableEq, Repr

/-- The latches written at acceptance: the command word and its operands (10_state.md R40). -/
structure Latches where
  op : Word
  a  : Word
  b  : Word
  c  : Word
  deriving DecidableEq, Repr

/-- `seq.phase` (10_state.md R40). -/
inductive Phase where
  | idle
  | run
  deriving DecidableEq, Repr

/-- The sequencer's own hidden state (10_state.md R40). `word` holds `WORD_BITS` bits and `t0` `TICK_BITS` bits, each
zero-extended to 32; `Safety.lean` states these bounds. -/
structure Sequencer where
  phase : Phase
  i     : BitVec 33
  word  : Word
  bytes : List Byte
  t0    : Word
  deriving DecidableEq, Repr

/-- The external memory: the bytes written, or listed in the initial image of the run, by rising address. An unlisted
address holds the free byte `Config.initialImage` gives (20_memory.md R69; assumption log 4). -/
abbrev Memory := List Host.Cell

/-- What the sink can answer to an offered byte (43_bulk.md R180). That it never answers is the empty list of answers. -/
inductive SinkAnswer where
  | accept
  | fail
  deriving DecidableEq, Repr

/-- The sink agent: the bytes it has accepted, oldest first, and the answers it will still give, next first
(43_bulk.md R180). With no answer left it never answers. -/
structure Sink where
  stream  : List Byte
  answers : List SinkAnswer
  deriving DecidableEq, Repr

/-- The host agent: the accesses it will still make, next first, and the values its reads returned, oldest first
(00_scope.md R13; 30_encoding.md R96, R98). -/
structure HostAgent where
  script : List HostOp
  reads  : List Word
  deriving DecidableEq, Repr

/-- Who takes a step (00_scope.md R13). Memory, tick and sink answer within the step of the sequencer or the host. `reset`
is the reset input (70_reset_and_hazards.md R230); `bringUp` is the platform finishing bring-up (R235). -/
inductive Turn where
  | host
  | sequencer
  | reset
  | bringUp
  deriving DecidableEq, Repr

/-- What a model records besides the block's state (60_exceptions.md R206): the sticky mark of an out-of-contract
configuration, and the events `oow_read(a)`, oldest first. -/
structure Marks where
  cfgOutOfContract : Bool
  oowReads         : List Word
  deriving DecidableEq, Repr

/-- The whole state: the block (`status`, `regs`, `lat`, `seq`), its parameters, and the agents around it. -/
structure State where
  /-- The implementation parameters; no step changes them (10_state.md R41). -/
  params : Params
  status : Status
  regs   : Regs
  lat    : Latches
  seq    : Sequencer
  mem    : Memory
  sink   : Sink
  host   : HostAgent
  /-- Who moves next, in order; any list is a possible interleaving (40_host_port.md R113). -/
  schedule : List Turn
  /-- Whether bring-up of the window has completed; the block cannot observe it (41_construction.md R134). -/
  windowReady : Bool
  marks  : Marks
  /-- The model's own counter of the draws taken so far (assumption logs 5, 6). -/
  draws  : Nat
  deriving DecidableEq, Repr

/-- Reasons a step ends in a fault. The block raises none (60_exceptions.md R203): the one below is the model's own. -/
inductive Fault where
  /-- Raised by EXPORT (`execExport`) in a state in which neither its read step nor its byte step is enabled and none is
  awaited: no byte to offer and no slot left, with the command not completed (43_bulk.md R175). Safe: no reachable state is
  such a state (`State.Inv`, kept by every step), and the spec gives no step there. -/
  | noEnabledStep
  deriving DecidableEq, Repr

/-- Reasons a step has no meaning in the model. -/
inductive Refusal where
  /-- Raised by `exec` for an instruction that has no meaning yet. Safe: nothing can be proved of it. -/
  | notModelled (mnemonic : String)
  /-- Raised by the host port (`hostAccess`) for an access that is not an aligned 32-bit access at offset 0x00 to 0x3C: the
  spec's refusal `host_narrow` (40_host_port.md R110; 60_exceptions.md R206). Safe: it errs toward unprovable. -/
  | hostNarrow
  deriving DecidableEq, Repr

/-- Right after reset at power-up (10_state.md R42; 70_reset_and_hazards.md R230), with the default parameters (00_scope.md
R8), memory with nothing listed, and agents that have done nothing and been given nothing to do (assumption logs 2, 3). -/
def State.reset : State where
  params := Params.default
  status := { busy := false, configured := false, durValid := false, ovr := false, err := .ok }
  regs := { opa := 0, opb := 0, opc := 0, result := 0, capacity := 0, base := 0, increment := 0,
            cursor := 0, duration := 0 }
  lat := { op := 0, a := 0, b := 0, c := 0 }
  seq := { phase := .idle, i := 0, word := 0, bytes := [], t0 := 0 }
  mem := []
  sink := { stream := [], answers := [] }
  host := { script := [], reads := [] }
  schedule := []
  windowReady := false
  marks := { cfgOutOfContract := false, oowReads := [] }
  draws := 0

/-! One named update per field; `Sys2Proof/Laws/State.lean` says what each one leaves. -/

def State.setStatus (s : State) (x : Status) : State := { s with status := x }
def State.setRegs (s : State) (x : Regs) : State := { s with regs := x }
def State.setLat (s : State) (x : Latches) : State := { s with lat := x }
def State.setSeq (s : State) (x : Sequencer) : State := { s with seq := x }
def State.setMem (s : State) (x : Memory) : State := { s with mem := x }
def State.setSink (s : State) (x : Sink) : State := { s with sink := x }
def State.setHost (s : State) (x : HostAgent) : State := { s with host := x }
def State.setSchedule (s : State) (x : List Turn) : State := { s with schedule := x }
def State.setWindowReady (s : State) (x : Bool) : State := { s with windowReady := x }
def State.setMarks (s : State) (x : Marks) : State := { s with marks := x }
def State.setDraws (s : State) (x : Nat) : State := { s with draws := x }

end Sys2Proof.Machine
end

