-- ==== Sys2Proof/Machine/Flags.lean ====
section
/-! DEFINITION. STATUS and PARAMS as the host reads them, and the events that set and clear each flag
(10_state.md R23, R32, R34). -/

namespace Sys2Proof.Machine

/-- The value of STATUS.ERR for each code (60_exceptions.md R200). -/
def errCode : ErrCode → BitVec 4
  | .ok => 0
  | .invalidConfiguration => 1
  | .exportFailed => 2
  | .notConfigured => 3
  | .illegalCommand => 4
  | .indexOutOfRange => 5

/-- STATUS as a word: ERR in bits 11:8, then OVR, DUR_VALID, CONFIGURED and BUSY in bits 3 to 0, the rest 0
(10_state.md R23; 40_host_port.md R111). -/
def statusWord (st : Status) : Word :=
  (0 : BitVec 20) ++ errCode st.err ++ (0 : BitVec 4) ++ BitVec.ofBool st.ovr ++ BitVec.ofBool st.durValid
    ++ BitVec.ofBool st.configured ++ BitVec.ofBool st.busy

/-- TOKEN_MODE as PARAMS[4] (10_state.md R32). -/
def tokenModeBit : TokenMode → BitVec 1
  | .fixed => 0
  | .minimal => 1

/-- PARAMS as a word: REVISION = 1 in 27:24, ADDR_W = 32 in 21:16, TICK_BITS in 13:8, TOKEN_MODE in 4, WORD_BYTES in 2:0,
the rest 0 (10_state.md R32). -/
def paramsWord (p : Params) : Word :=
  (0 : BitVec 4) ++ (1 : BitVec 4) ++ (0 : BitVec 2) ++ (32 : BitVec 6) ++ (0 : BitVec 2)
    ++ BitVec.ofNat 6 p.tickBits ++ (0 : BitVec 3) ++ tokenModeBit p.tokenMode ++ (0 : BitVec 1)
    ++ BitVec.ofNat 3 p.wordBytes.count

/-- Acceptance: BUSY <- 1 and ERR <- 0 (40_host_port.md R114, R117). -/
def Status.accepted (st : Status) : Status := { st with busy := true, err := .ok }

/-- Completion: ERR <- the code and BUSY <- 0 (40_host_port.md R118). -/
def Status.completed (st : Status) (code : ErrCode) : Status := { st with busy := false, err := code }

/-- A dropped CMD write sets OVR (40_host_port.md R116). -/
def Status.overrun (st : Status) : Status := { st with ovr := true }

/-- A host write to STATUS clears OVR when bit 3 of the data is 1, and does nothing else (40_host_port.md R112). -/
def Status.hostWrite (st : Status) (d : Word) : Status :=
  if d.getLsbD 3 then { st with ovr := false } else st

/-- A successful CONFIG sets CONFIGURED and clears DUR_VALID (41_construction.md R130). -/
def Status.installed (st : Status) : Status := { st with configured := true, durValid := false }

/-- A CONFIG with capacity 0 clears CONFIGURED (41_construction.md R131). -/
def Status.destroyed (st : Status) : Status := { st with configured := false }

/-- A successful EXPORT sets DUR_VALID (43_bulk.md R175). -/
def Status.timed (st : Status) : Status := { st with durValid := true }

end Sys2Proof.Machine
end

