-- ==== Sys2Proof/Machine/Operands.lean ====
section
/-! DEFINITION. The operand forms: the address each command computes (20_memory.md R70, R71), the word a WRITE stores
(42_word_access.md R142), and the bounds an operand is held against. -/

namespace Sys2Proof.Machine

/-- `WORD_BYTES` as a number. -/
def State.wordBytes (s : State) : Nat := s.params.wordBytes.count

/-- `trunc_N(v) = v mod 2^N`, zero-extended to 32 bits again (00_scope.md R11). -/
def truncTo (n : Nat) (v : Word) : Word := BitVec.ofNat 32 (v.toNat % 2 ^ n)

/-- `addr_of(i) = (BASE + INCREMENT × i) mod 2^32`, the product exact before the reduction (20_memory.md R70). -/
def State.addrOf (s : State) (i : Nat) : Word :=
  BitVec.ofNat 32 (s.regs.base.toNat + s.regs.increment.toNat * i)

/-- The slot WRITE stores to: `addr_of(CURSOR)` (20_memory.md R71). -/
def State.writeAddr (s : State) : Word := s.addrOf s.regs.cursor.toNat

/-- The indexed form of READI and READC: `addr_of(lat.a)` (20_memory.md R71). -/
def State.indexAddr (s : State) : Word := s.addrOf s.lat.a.toNat

/-- The offset form of READO: `(BASE + lat.a) mod 2^32`, not scaled (20_memory.md R71; 42_word_access.md R150). -/
def State.offsetAddr (s : State) : Word := s.regs.base + s.lat.a

/-- The slot a bulk step is at: `addr_of(seq.i)` (20_memory.md R71). -/
def State.bulkAddr (s : State) : Word := s.addrOf s.seq.i.toNat

/-- The word WRITE stores: `trunc_WORD_BITS(lat.a)` (42_word_access.md R142). -/
def State.writeValue (s : State) : Word := truncTo s.params.wordBits s.lat.a

/-- The cursor after a WRITE: one more, exactly, or 0 when that is CAPACITY (42_word_access.md R140). -/
def State.nextCursor (s : State) : Word :=
  if s.regs.cursor.toNat + 1 = s.regs.capacity.toNat then 0
  else BitVec.ofNat 32 (s.regs.cursor.toNat + 1)

/-- READC's bound test passes (42_word_access.md R160). -/
def State.indexInRange (s : State) : Bool := s.lat.a.toNat < s.regs.capacity.toNat

/-- One address is a multiple of `WORD_BYTES` (20_memory.md R65). -/
def State.aligned (s : State) (a : Word) : Bool := a.toNat % s.wordBytes == 0

/-- The access at `a` is byte-exact: aligned, or misaligned under `SPLIT_LE` (20_memory.md R66). -/
def State.byteExact (s : State) (a : Word) : Bool :=
  s.aligned a || s.params.misalignedMode == .splitLE

/-- The end of the window, exact: `BASE + INCREMENT × CAPACITY` (20_memory.md R60, R73). -/
def State.windowEnd (s : State) : Nat :=
  s.regs.base.toNat + s.regs.increment.toNat * s.regs.capacity.toNat

/-- One byte address is inside `[lo, hi)`, read without wrap (20_memory.md R68). -/
def byteInWindow (lo hi : Nat) (a : Word) : Bool := lo ≤ a.toNat && a.toNat < hi

/-- Each of `n` bytes from `a` on, mod 2^32, is inside `[lo, hi)`. -/
def bytesInWindow (lo hi : Nat) (a : Word) : Nat → Bool
  | 0 => true
  | n + 1 => byteInWindow lo hi a && bytesInWindow lo hi (a + 1) n

/-- The word access at `a` is inside the window: none of its bytes lies outside (20_memory.md R68). -/
def State.inWindow (s : State) (a : Word) : Bool := bytesInWindow s.regs.base.toNat s.windowEnd a s.wordBytes

/-- A configuration is in contract: `INCREMENT ≥ WORD_BYTES` and the window does not pass 2^32 (20_memory.md R73). -/
def configInContract (wordBytes : Nat) (capacity base increment : Word) : Bool :=
  wordBytes ≤ increment.toNat && base.toNat + increment.toNat * capacity.toNat ≤ 2 ^ 32

end Sys2Proof.Machine
end

