-- ==== Sys2Proof/Machine/Ops.lean ====
section
/-! DEFINITION. The named operations every meaning is written over: bytes and words of the external memory (20_memory.md R62
to R68), the sink and the tick (43_bulk.md R180; 60_exceptions.md R214), completion, which is the one way a command ends and
an error is reported (40_host_port.md R118; there is no trap and no return from one, 60_exceptions.md R203, R204), the
first-step check (40_host_port.md R119), and reset (70_reset_and_hazards.md R230). -/

namespace Sys2Proof.Machine

/-! ### Memory as a list of cells -/

/-- The cell listed for an address, if one is. -/
def Memory.find? : Memory → Nat → Option Byte
  | [], _ => none
  | c :: m, a => if c.1 = a then some c.2 else Memory.find? m a

/-- The byte at a physical address: the listed one, or the initial image's (20_memory.md R69). -/
def Memory.byte (m : Memory) (a : Word) : Byte :=
  (Memory.find? m a.toNat).getD (Config.initialImage a.toNat)

/-- List a byte at an address, keeping the addresses strictly rising. -/
def Memory.insert : Memory → Nat → Byte → Memory
  | [], a, b => [(a, b)]
  | c :: m, a, b =>
    if a < c.1 then (a, b) :: c :: m
    else if a = c.1 then (a, b) :: m
    else c :: Memory.insert m a b

/-- Write one byte at a physical address. -/
def Memory.setByte (m : Memory) (a : Word) (b : Byte) : Memory := Memory.insert m a.toNat b

/-- The canonical form: addresses strictly rising, each one of the 2^32 that exist (20_memory.md R60). An unlisted address
reads as no listed value but as the free initial image, so no entry can equal it and none is removed (assumption log 4). -/
abbrev Memory.wf (m : Memory) : Prop :=
  m.Pairwise (fun c d => c.1 < d.1) ∧ ∀ c ∈ m, c.1 < 2 ^ 32

/-- The little-endian number in `n` bytes from `a` on, mod 2^32 (20_memory.md R62). -/
def Memory.load (m : Memory) (a : Word) : Nat → Nat
  | 0 => 0
  | n + 1 => (m.byte a).toNat + 256 * Memory.load m (a + 1) n

/-- Write the `n` low bytes of `v`, little-endian, from `a` on, mod 2^32 (20_memory.md R63). -/
def Memory.store (m : Memory) (a : Word) : Nat → Nat → Memory
  | 0, _ => m
  | n + 1, v => (Memory.store m (a + 1) n (v / 256)).setByte a (BitVec.ofNat 8 v)

/-- Leave a draw in each of `n` bytes from `a` on, mod 2^32, the `d`-th draw first (20_memory.md R66). -/
def Memory.havoc (m : Memory) (a : Word) : Nat → Nat → Memory
  | 0, _ => m
  | n + 1, d => (Memory.havoc m (a + 1) n (d + 1)).setByte a (Config.drawnByte d)

/-- The start of the aligned word that holds byte `a` (20_memory.md R65, R66). -/
def State.alignedBase (s : State) (a : Word) : Word :=
  BitVec.ofNat 32 (a.toNat / s.wordBytes * s.wordBytes)

/-! ### Word accesses of the memory master port -/

/-- A fresh drawn word of `WORD_BITS` bits. -/
def State.drawWord (s : State) : Word × State :=
  (truncTo s.params.wordBits (Config.drawnWord s.draws), s.setDraws (s.draws + 1))

/-- `MemRead(a, WORD_BYTES)`: the value, and the state after. Inside the window and byte-exact it is the little-endian word
(20_memory.md R62) and changes nothing (R68). Misaligned under `OPEN` it is a draw (R66). Outside the window it is a draw and
the event `oow_read(a)` is recorded (R68), whatever the alignment (assumption log 11). -/
def State.memRead (s : State) (a : Word) : Word × State :=
  if s.inWindow a then
    if s.byteExact a then (BitVec.ofNat 32 (s.mem.load a s.wordBytes), s)
    else s.drawWord
  else
    (s.setMarks { s.marks with oowReads := s.marks.oowReads ++ [a] }).drawWord

/-- `MemWrite(a, WORD_BYTES, v)`: byte-exact, or, misaligned under `OPEN`, a draw in every byte of the two aligned words that
overlap the access (20_memory.md R63, R66). The address is checked against nothing (R63, R72). -/
def State.memWrite (s : State) (a v : Word) : State :=
  if s.byteExact a then s.setMem (s.mem.store a s.wordBytes v.toNat)
  else (s.setMem (s.mem.havoc (s.alignedBase a) (2 * s.wordBytes) s.draws)).setDraws (s.draws + 2 * s.wordBytes)

/-! ### Sink and tick -/

/-- `SinkPut(b)`: the sink's answer and the state after, or none when it does not answer (43_bulk.md R180). An accepted byte
joins the sink's stream; a failed one does not. -/
def State.sinkPut (s : State) (b : Byte) : Option (SinkAnswer × State) :=
  match s.sink.answers with
  | [] => none
  | .accept :: rest => some (.accept, s.setSink { stream := s.sink.stream ++ [b], answers := rest })
  | .fail :: rest => some (.fail, s.setSink { s.sink with answers := rest })

/-- `TickSample()`: a fresh drawn value of `TICK_BITS` bits (60_exceptions.md R214, R216). -/
def State.tickSample (s : State) : Word × State :=
  (truncTo s.params.tickBits (Config.tick s.draws), s.setDraws (s.draws + 1))

/-! ### Completion, the first-step check, reset -/

/-- `complete(code)`: ERR <- code, BUSY <- 0, `seq.phase` <- IDLE (40_host_port.md R118). A command's register updates are
made on the state given to it, in the same step. -/
def State.complete (s : State) (code : ErrCode) : State :=
  (s.setStatus (s.status.completed code)).setSeq { s.seq with phase := .idle }

/-- The sequencer has taken no step of the running command yet: `seq.i` and `seq.bytes` are as acceptance left them
(40_host_port.md R114, R119; assumption log 9). -/
def State.firstStep (s : State) : Bool := s.seq.i == 0 && s.seq.bytes.isEmpty

/-- The check a command of one step makes before its rule: NOT_CONFIGURED while no instance exists (40_host_port.md R119,
R120). -/
def State.ifConfigured (s : State) (rule : State) : Host.Outcome State Fault Refusal :=
  .next (if s.status.configured then rule else s.complete .notConfigured)

/-- The same check as a bulk command makes it, in its first step only (40_host_port.md R119; 43_bulk.md R175). -/
def State.rejectedAtStart (s : State) : Bool := s.firstStep && !s.status.configured

/-- The reset input: every piece of the block's state to its reset value; the parameters, the external memory, the sink, the
host, the schedule, bring-up, the marks and the draws taken stay (70_reset_and_hazards.md R230, R231; assumption log 18). -/
def State.applyReset (s : State) : State :=
  { s with status := State.reset.status, regs := State.reset.regs, lat := State.reset.lat, seq := State.reset.seq }

end Sys2Proof.Machine
end

