-- ==== Sys2Proof/Machine/Bulk.lean ====
section
/-! DEFINITION. The bulk sequencer: one step of FILLZ, one step of EXPORT, and the export token (43_bulk.md). -/

namespace Sys2Proof.Machine

/-! ### Tokens -/

/-- The byte of a hexadecimal digit, uppercase ASCII (43_bulk.md R179). -/
def hexChar (n : Nat) : Byte :=
  if n ≤ 9 then BitVec.ofNat 8 (0x30 + n) else BitVec.ofNat 8 (0x41 + (n - 10))

/-- The `d` low hexadecimal digits of `v`, most significant first (43_bulk.md R177). -/
def hexDigits : Nat → Nat → List Nat
  | 0, _ => []
  | d + 1, v => (v / 16 ^ d % 16) :: hexDigits d v

/-- Digits without leading zeros, the single digit 0 for zero (43_bulk.md R178). -/
def withoutLeadingZeros : List Nat → List Nat
  | [] => [0]
  | d :: ds => if d = 0 then withoutLeadingZeros ds else d :: ds

/-- `Token(v)` under `TOKEN_MODE` (43_bulk.md R177, R178). -/
def token (p : Params) (v : Word) : List Byte :=
  let digits := hexDigits (2 * p.wordBytes.count) v.toNat
  match p.tokenMode with
  | .fixed => digits.map hexChar
  | .minimal => (withoutLeadingZeros digits).map hexChar

/-- What EXPORT emits for one word: its token and one space, byte 0x20 (43_bulk.md R175, R181). -/
def tokenText (p : Params) (v : Word) : List Byte := token p v ++ [0x20]

/-! ### FILLZ -/

/-- FILLZ, one step (43_bulk.md R170): write 0 at slot `seq.i` and count it; after the last slot CURSOR <- 0 and complete. -/
def execFillz (s : State) : Host.Outcome State Fault Refusal :=
  let t := s.memWrite s.bulkAddr 0
  let u := t.setSeq { t.seq with i := t.seq.i + 1 }
  .next
    (if s.rejectedAtStart then s.complete .notConfigured
     else if u.seq.i.toNat = u.regs.capacity.toNat then (u.setRegs { u.regs with cursor := 0 }).complete .ok
     else u)

/-! ### EXPORT -/

/-- The read step (43_bulk.md R175): read slot `seq.i`, queue its text, count it. -/
def State.exportRead (s : State) : State :=
  let (v, t) := s.memRead s.bulkAddr
  t.setSeq { t.seq with word := v, bytes := tokenText t.params v, i := t.seq.i + 1 }

/-- The end of a successful pass (43_bulk.md R175, R184): sample the tick, DURATION <- (t1 - `seq.t0`) mod 2^TICK_BITS,
DUR_VALID <- 1, CURSOR <- 0, complete. -/
def State.exportFinish (s : State) : State :=
  let (t1, t) := s.tickSample
  ((t.setRegs { t.regs with duration := truncTo t.params.tickBits (t1 - t.seq.t0), cursor := 0 }).setStatus
    t.status.timed).complete .ok

/-- The byte step (43_bulk.md R175, R182): offer the byte; a failure ends the command at once, an accepted byte leaves the
queue, the last one of the last slot ends the pass. While the sink does not answer, the sequencer has no step and the state
stays (R180, R182; assumption log 8). -/
def State.exportByte (s : State) (b : Byte) (rest : List Byte) : State :=
  match s.sinkPut b with
  | none => s
  | some (.fail, t) => t.complete .exportFailed
  | some (.accept, t) =>
    let u := t.setSeq { t.seq with bytes := rest }
    if rest.isEmpty && u.seq.i.toNat == u.regs.capacity.toNat then u.exportFinish else u

/-- EXPORT, one step (43_bulk.md R175): a byte step while bytes are queued, else a read step while a slot is left. -/
def execExport (s : State) : Host.Outcome State Fault Refusal :=
  if s.rejectedAtStart then .next (s.complete .notConfigured)
  else
    match s.seq.bytes with
    | b :: rest => .next (s.exportByte b rest)
    | [] => if s.seq.i.toNat < s.regs.capacity.toNat then .next s.exportRead else .fault .noEnabledStep

end Sys2Proof.Machine
end

