-- ==== Sys2Proof/Machine/Construction.lean ====
section
/-! DEFINITION. CONFIG, the construction (41_construction.md). -/

namespace Sys2Proof.Machine

/-- The register updates of a successful CONFIG, before completion (41_construction.md R130). The mark is set when the
configuration installed is out of contract (R132). -/
def State.install (s : State) : State :=
  ((s.setRegs { s.regs with capacity := s.lat.a, base := s.lat.b, increment := s.lat.c, cursor := 0, duration := 0 }).setStatus
      s.status.installed).setMarks
    { s.marks with
      cfgOutOfContract := s.marks.cfgOutOfContract || !configInContract s.wordBytes s.lat.a s.lat.b s.lat.c }

/-- CONFIG (41_construction.md R130, R131): capacity 0 destroys the instance with INVALID_CONFIGURATION, any other capacity
installs a new one. It is legal while CONFIGURED = 0. -/
def execConfig (s : State) : Host.Outcome State Fault Refusal :=
  .next (if s.lat.a = 0 then (s.setStatus s.status.destroyed).complete .invalidConfiguration
         else s.install.complete .ok)

end Sys2Proof.Machine
end

