-- ==== Sys2Proof/Machine/WordAccess.lean ====
section
/-! DEFINITION. The commands of one word access: WRITE, READI, READO, READC (42_word_access.md). -/

namespace Sys2Proof.Machine

/-- Read the word at an address into RESULT, zero-extended, and complete (42_word_access.md R145, R150, R160). -/
def State.readInto (s : State) (a : Word) : State :=
  let (v, t) := s.memRead a
  (t.setRegs { t.regs with result := v }).complete .ok

/-- WRITE (42_word_access.md R140): store the truncated operand at the cursor's slot, then advance the cursor circularly. -/
def execWrite (s : State) : Host.Outcome State Fault Refusal :=
  let t := s.memWrite s.writeAddr s.writeValue
  s.ifConfigured ((t.setRegs { t.regs with cursor := s.nextCursor }).complete .ok)

/-- READI (42_word_access.md R145): the unchecked indexed read. -/
def execReadi (s : State) : Host.Outcome State Fault Refusal :=
  s.ifConfigured (s.readInto s.indexAddr)

/-- READO (42_word_access.md R150): the unchecked byte-offset read. -/
def execReado (s : State) : Host.Outcome State Fault Refusal :=
  s.ifConfigured (s.readInto s.offsetAddr)

/-- READC (42_word_access.md R160, R161): the indexed read, rejected with no access when the index is not below CAPACITY. -/
def execReadc (s : State) : Host.Outcome State Fault Refusal :=
  s.ifConfigured (if s.indexInRange then s.readInto s.indexAddr else s.complete .indexOutOfRange)

end Sys2Proof.Machine
end

