-- ==== Sys2Proof/Machine/Dispatch.lean ====
section
/-! DEFINITION. Which meaning each command has: the sequencer's step of a running command. -/

namespace Sys2Proof.Machine

def exec (i : Instr) (s : State) : Host.Outcome State Fault Refusal :=
  match i with
  | .config => Sys2Proof.Machine.execConfig s
  | .write => Sys2Proof.Machine.execWrite s
  | .readi => Sys2Proof.Machine.execReadi s
  | .reado => Sys2Proof.Machine.execReado s
  | .fillz => Sys2Proof.Machine.execFillz s
  | .exportText => Sys2Proof.Machine.execExport s
  | .readc => Sys2Proof.Machine.execReadc s

end Sys2Proof.Machine
end

