-- ==== Sys2Proof/Machine/HostPort.lean ====
section
/-! DEFINITION. The host register port: reads and writes of the registers, acceptance of a command and overrun
(40_host_port.md), and the host agent's script of accesses (30_encoding.md R96 to R98). -/

namespace Sys2Proof.Machine

/-- The register at a byte offset of the window, if the offset is one of the sixteen (10_state.md R22, R33). -/
def hostRegAt : Nat → Option HostReg
  | 0x00 => some .cmd
  | 0x04 => some .status
  | 0x08 => some .opa
  | 0x0C => some .opb
  | 0x10 => some .opc
  | 0x14 => some .result
  | 0x18 => some .capacity
  | 0x1C => some .base
  | 0x20 => some .increment
  | 0x24 => some .cursor
  | 0x28 => some .duration
  | 0x2C => some .params
  | 0x30 => some .reserved
  | 0x34 => some .reserved
  | 0x38 => some .reserved
  | 0x3C => some .reserved
  | _ => none

/-- The register an access reaches, if it has the admitted form (40_host_port.md R110). -/
def accessReg (hostBase : Nat) (a : HostAccess) : Option HostReg :=
  if a.size = 4 ∧ hostBase ≤ a.addr then hostRegAt (a.addr - hostBase) else none

/-- `RD off`: the value of each register as the host reads it (40_host_port.md R111). -/
def State.hostRead (s : State) : HostReg → Word
  | .cmd => 0
  | .status => statusWord s.status
  | .opa => s.regs.opa
  | .opb => s.regs.opb
  | .opc => s.regs.opc
  | .result => s.regs.result
  | .capacity => s.regs.capacity
  | .base => s.regs.base
  | .increment => s.regs.increment
  | .cursor => s.regs.cursor
  | .duration => truncTo s.params.tickBits s.regs.duration
  | .params => paramsWord s.params
  | .reserved => 0

/-- `seq.t0` and the count of draws after acceptance of the word `w`. Only EXPORT samples the tick (20_memory.md R60,
60_exceptions.md R214, 90_conflicts.md C3); any other word leaves both (assumption log 23). -/
def State.tickAtAccept (s : State) (w : Word) : Word × Nat :=
  if decode w = .command .exportText then (s.tickSample.1, s.tickSample.2.draws) else (s.seq.t0, s.draws)

/-- Acceptance of the command word `w` (40_host_port.md R114, R115, R117): latch the word and the operands, BUSY <- 1,
ERR <- 0, start the sequencer, and for EXPORT sample the tick. Every word is accepted, legal or not. -/
def State.accept (s : State) (w : Word) : State :=
  (((s.setLat { op := w, a := s.regs.opa, b := s.regs.opb, c := s.regs.opc }).setStatus s.status.accepted).setSeq
    { phase := .run, i := 0, word := 0, bytes := [], t0 := (s.tickAtAccept w).1 }).setDraws (s.tickAtAccept w).2

/-- `cmd_write(w)`: acceptance while BUSY = 0, and while BUSY = 1 a dropped write that sets OVR (40_host_port.md R114,
R116). -/
def State.cmdWrite (s : State) (w : Word) : State :=
  if s.status.busy then s.setStatus s.status.overrun else s.accept w

/-- `WR off, d` (40_host_port.md R112): read-only and reserved registers ignore it. -/
def State.hostWrite (s : State) (r : HostReg) (d : Word) : State :=
  match r with
  | .cmd => s.cmdWrite d
  | .status => s.setStatus (s.status.hostWrite d)
  | .opa => s.setRegs { s.regs with opa := d }
  | .opb => s.setRegs { s.regs with opb := d }
  | .opc => s.setRegs { s.regs with opc := d }
  | .result => s
  | .capacity => s
  | .base => s
  | .increment => s
  | .cursor => s
  | .duration => s
  | .params => s
  | .reserved => s

/-- Record the value a read returned to the host. -/
def State.returnToHost (s : State) (v : Word) : State :=
  s.setHost { s.host with reads := s.host.reads ++ [v] }

/-- One host access (40_host_port.md R110 to R112). An access outside the admitted form is refused by name, as `HOST_NARROW`
says. -/
def State.hostAccess (s : State) (a : HostAccess) : Host.Outcome State Fault Refusal :=
  match accessReg s.params.hostBase a with
  | none =>
    match s.params.hostNarrow with
    | .openRefuse => .refused .hostNarrow
  | some r =>
    match a.kind with
    | .read => .next (s.returnToHost (s.hostRead r))
    | .write d => .next (s.hostWrite r d)

/-- The host takes one step of its script: an access, or one poll of STATUS that ends the `WAIT` when BUSY = 0
(30_encoding.md R96). With no script left it does nothing. -/
def State.hostStep (s : State) : Host.Outcome State Fault Refusal :=
  match s.host.script with
  | [] => .next s
  | .access a :: rest => (s.setHost { s.host with script := rest }).hostAccess a
  | .wait :: rest =>
    .next ((if s.status.busy then s else s.setHost { s.host with script := rest }).returnToHost (statusWord s.status))

/-! ### Host scripts -/

/-- The byte offset of each register; the first reserved one stands for `reserved` (10_state.md R22). -/
def hostOffset : HostReg → Nat
  | .cmd => 0x00
  | .status => 0x04
  | .opa => 0x08
  | .opb => 0x0C
  | .opc => 0x10
  | .result => 0x14
  | .capacity => 0x18
  | .base => 0x1C
  | .increment => 0x20
  | .cursor => 0x24
  | .duration => 0x28
  | .params => 0x2C
  | .reserved => 0x30

/-- `WR r, d` as a line of a host script (30_encoding.md R96, R98). -/
def hostWR (hostBase : Nat) (r : HostReg) (d : Word) : HostOp :=
  .access { addr := hostBase + hostOffset r, size := 4, kind := .write d }

/-- `RD r` as a line of a host script (30_encoding.md R96, R98). -/
def hostRD (hostBase : Nat) (r : HostReg) : HostOp :=
  .access { addr := hostBase + hostOffset r, size := 4, kind := .read }

/-- The expansion of each pseudo-instruction (30_encoding.md R97). -/
def expand (hb : Nat) : Pseudo → List HostOp
  | .config cap base inc =>
    [hostWR hb .opa cap, hostWR hb .opb base, hostWR hb .opc inc, hostWR hb .cmd 0x00000001, .wait]
  | .write v => [hostWR hb .opa v, hostWR hb .cmd 0x00000002, .wait]
  | .readi i => [hostWR hb .opa i, hostWR hb .cmd 0x00000003, .wait, hostRD hb .result]
  | .reado off => [hostWR hb .opa off, hostWR hb .cmd 0x00000004, .wait, hostRD hb .result]
  | .fillz => [hostWR hb .cmd 0x00000005, .wait]
  | .exportText => [hostWR hb .cmd 0x00000006, .wait]
  | .readc i => [hostWR hb .opa i, hostWR hb .cmd 0x00000007, .wait, hostRD hb .status, hostRD hb .result]
  | .clrovr => [hostWR hb .status 0x00000008]
  | .check => [hostRD hb .status]

end Sys2Proof.Machine
end

