-- ==== Sys2Proof/Machine/Sequencer.lean ====
section
/-! DEFINITION. The sequencer's step (40_host_port.md R113, R119), and which agent takes the next step. -/

namespace Sys2Proof.Machine

/-- One step of the sequencer. Idle, it has none. Running, it decodes the latched word: an illegal one completes with
ILLEGAL_COMMAND before anything else is tested (40_host_port.md R119, R121; 60_exceptions.md R202); a command takes a step of
its rule. -/
def State.sequencerStep (s : State) : Host.Outcome State Fault Refusal :=
  match s.seq.phase with
  | .idle => .next s
  | .run =>
    match decode s.lat.op with
    | .illegal _ => .next (s.complete .illegalCommand)
    | .command i => exec i s

/-- EXPORT has offered a byte and the sink does not answer: the one running state without a sequencer step
(40_host_port.md R122; 43_bulk.md R180, R182). -/
def State.awaitingSink (s : State) : Bool :=
  s.seq.phase == .run && decode s.lat.op == .command .exportText && !s.seq.bytes.isEmpty && s.sink.answers.isEmpty

/-- Whose turn it is. The schedule says; once it is exhausted, the sequencer moves whenever it has a step, else the host
(40_host_port.md R113, R122; assumption log 7). -/
def State.turn (s : State) : Turn :=
  match s.schedule with
  | t :: _ => t
  | [] => if s.seq.phase == .run && !s.awaitingSink then .sequencer else .host

/-- The agent whose turn it is takes its step. -/
def State.takeTurn (s : State) : Turn → Host.Outcome State Fault Refusal
  | .host => s.hostStep
  | .sequencer => s.sequencerStep
  | .reset => .next s.applyReset
  | .bringUp => .next (s.setWindowReady true)

/-- The turn is used up. -/
def State.popTurn (s : State) : State := s.setSchedule s.schedule.tail

/-- The command word `w` accepted, and the sequencer's turn next (assumption log 16). -/
def State.withCommand (s : State) (w : Word) : State :=
  (s.accept w).setSchedule (.sequencer :: s.schedule)

/-- `n` steps of the sequencer alone, stopping at the first that is not a next state. -/
def State.sequencerSteps : Nat → State → Host.Outcome State Fault Refusal
  | 0, s => .next s
  | n + 1, s =>
    match s.sequencerStep with
    | .next t => State.sequencerSteps n t
    | .fault f => .fault f
    | .refused r => .refused r

end Sys2Proof.Machine
end

