-- ==== Sys2Proof/Machine/Step.lean ====
section
/-! DEFINITION. One step of the machine, and how a command is placed where the next step runs it. -/

namespace Sys2Proof.Machine

/-- One step: the agent whose turn it is moves (00_scope.md R13; 40_host_port.md R113). -/
def step (s : State) : Host.Outcome State Fault Refusal :=
  s.popTurn.takeTurn s.turn

/-- The state in which the next step runs the command word `w`: the word accepted as 40_host_port.md R114 says, with the
sequencer's turn next. -/
def State.withFetchWord (s : State) (nbits w : Nat) : State :=
  s.withCommand (BitVec.ofNat 32 (w % 2 ^ nbits))

end Sys2Proof.Machine
end

