-- ==== Sys2Proof/Safety.lean ====
section
/-! DEFINITION. What statements about the block are said in: the invariant every step keeps, the premises of the contract
(00_scope.md R15; 20_memory.md R73), the end of a run (R14), and the words for comparing states and outcomes. -/

namespace Sys2Proof.Machine

/-- The installed configuration is in contract (20_memory.md R73). -/
abbrev State.windowInContract (s : State) : Prop :=
  configInContract s.wordBytes s.regs.capacity s.regs.base s.regs.increment = true

/-- The running command is where its own rule can leave it: not begun, or, with an instance, inside a bulk pass with a step
left to take (10_state.md R40; 43_bulk.md R170, R175). -/
abbrev State.runInRange (s : State) : Prop :=
  s.firstStep = true ∨
  (s.status.configured = true ∧
    ((decode s.lat.op = .command .fillz ∧ s.seq.i.toNat < s.regs.capacity.toNat) ∨
     (decode s.lat.op = .command .exportText ∧ s.seq.i.toNat ≤ s.regs.capacity.toNat ∧
       (s.seq.bytes = [] → s.seq.i.toNat < s.regs.capacity.toNat))))

/-- The invariant of the machine. -/
abbrev State.Inv (s : State) : Prop :=
  s.params.wf = true ∧
  -- the memory keeps its canonical form
  s.mem.wf ∧
  -- fields held wider than the spec makes them stay in their width (10_state.md R28, R30, R40)
  (s.regs.result.toNat < 2 ^ s.params.wordBits ∧ s.regs.duration.toNat < 2 ^ s.params.tickBits ∧
    s.seq.word.toNat < 2 ^ s.params.wordBits ∧ s.seq.t0.toNat < 2 ^ s.params.tickBits) ∧
  -- IDLE exactly when BUSY = 0 (10_state.md R40)
  (s.seq.phase = .idle ↔ s.status.busy = false) ∧
  -- ERR = 0 from acceptance to completion (40_host_port.md R117)
  (s.status.busy = true → s.status.err = .ok) ∧
  -- CURSOR < CAPACITY while an instance exists, so 1 ≤ CAPACITY (10_state.md R24, R35)
  (s.status.configured = true → s.regs.cursor.toNat < s.regs.capacity.toNat) ∧
  -- the mark is set when the installed configuration is out of contract (41_construction.md R132)
  (s.status.configured = true → s.marks.cfgOutOfContract = false → s.windowInContract) ∧
  (s.seq.phase = .run → s.runInRange)

/-- The premises a claim takes of a run's start (00_scope.md R15; 41_construction.md R132): bring-up has completed and no
out-of-contract configuration was installed. The model has no other writer of the window and no direct host access. -/
abbrev State.contract (s : State) : Prop :=
  s.windowReady = true ∧ s.marks.cfgOutOfContract = false

/-- The end of a run (00_scope.md R14): no command in progress and no further host access. -/
abbrev State.endOfRun (s : State) : Prop :=
  s.status.busy = false ∧ s.host.script = []

/-- The access of every slot is byte-exact: under `SPLIT_LE` always, under `OPEN` when BASE and INCREMENT are multiples of
`WORD_BYTES` (20_memory.md R66). -/
abbrev State.slotsByteExact (s : State) : Prop :=
  ∀ i : Nat, i < s.regs.capacity.toNat → s.byteExact (s.addrOf i) = true

/-- The byte of the external memory at a physical address. -/
def State.byteAt (s : State) (a : Word) : Byte := s.mem.byte a

/-- Address `a` is one of the `n` bytes from `start` on, mod 2^32. -/
abbrev inBytes (start : Word) (n : Nat) (a : Word) : Prop := (a - start).toNat < n

/-- The bytes a word write at `a` can change: the word itself, or, misaligned under `OPEN`, the two aligned words it overlaps
(20_memory.md R63, R66). -/
abbrev State.touched (s : State) (a x : Word) : Prop :=
  if s.byteExact a then inBytes a s.wordBytes x else inBytes (s.alignedBase a) (2 * s.wordBytes) x

/-- Every byte of memory outside those a word write at `a` touches is the same in `s` and `t`. -/
abbrev memFrame (s t : State) (a : Word) : Prop := ∀ x : Word, ¬ s.touched a x → t.byteAt x = s.byteAt x

/-- The host's next access, made in this step, is an admitted write of `d` to the register `r`. -/
def State.hostWrites (s : State) (r : HostReg) (d : Word) : Prop :=
  s.turn = .host ∧ ∃ a rest, s.host.script = .access a :: rest ∧ accessReg s.params.hostBase a = some r ∧ a.kind = .write d

/-- The sequencer takes a step of the command `i` in this step. -/
abbrev State.runs (s : State) (i : Instr) : Prop :=
  s.turn = .sequencer ∧ s.seq.phase = .run ∧ decode s.lat.op = .command i

/-- The step from `s` to `t` is the completion of a command (40_host_port.md R118). -/
abbrev completesIn (s t : State) : Prop :=
  s.turn = .sequencer ∧ s.seq.phase = .run ∧ t.seq.phase = .idle

/-- The step is the byte step in which the sink accepts the last byte of the last token (43_bulk.md R175). -/
def State.exportEnds (s : State) : Prop :=
  s.runs .exportText ∧ s.seq.i.toNat = s.regs.capacity.toNat ∧
    ∃ b answers, s.seq.bytes = [b] ∧ s.sink.answers = .accept :: answers

/-- A bulk command was accepted, with an instance, and has taken no step (40_host_port.md R114). -/
abbrev State.starts (s : State) (i : Instr) : Prop :=
  s.seq.phase = .run ∧ decode s.lat.op = .command i ∧ s.seq.i = 0 ∧ s.seq.bytes = [] ∧
    s.status.configured = true ∧ 0 < s.regs.capacity.toNat

/-- Apply a change to the next state of an outcome, if it is one. -/
def mapNext (f : State → State) : Host.Outcome State Fault Refusal → Host.Outcome State Fault Refusal
  | .next s => .next (f s)
  | .fault r => .fault r
  | .refused r => .refused r

/-- The host writes a value to OPA and then a command word to CMD, and the sequencer takes one step: the call of a command
of one operand and one step (30_encoding.md R97; 40_host_port.md R122). -/
def State.call (s : State) (w a : Word) : Host.Outcome State Fault Refusal :=
  ((s.hostWrite .opa a).hostWrite .cmd w).sequencerStep

/-- A run of WRITE calls, one for each value, in order (42_word_access.md R141). -/
def State.callWrites : List Word → State → Host.Outcome State Fault Refusal
  | [], s => .next s
  | v :: vs, s =>
    match s.call (encode .write) v with
    | .next t => State.callWrites vs t
    | .fault f => .fault f
    | .refused r => .refused r

/-- The little-endian word in slot `i` (20_memory.md R62, R70). -/
def State.slotWord (s : State) (i : Nat) : Word := BitVec.ofNat 32 (s.mem.load (s.addrOf i) s.wordBytes)

/-- The text a successful EXPORT emits (43_bulk.md R183). -/
def State.exportedText (s : State) : List Byte :=
  (List.range s.regs.capacity.toNat).flatMap (fun i => tokenText s.params (s.slotWord i))

end Sys2Proof.Machine
end

