-- ==== Sys2Proof/Certificates/Slice0/Obligations.lean ====
section
/-! DEFINITION. The statements for the provers. Each docstring names the rule of spec/ it formalises. A next state written as
`{ s with … }` says the frame as well: whatever is not named is unchanged. -/

open Sys2Proof Sys2Proof.Machine

/-! ### Encoding -/

/-- 30_encoding.md R92, R94: the seven legal words, each its command, and every other word illegal. -/
def Obligations.OpcodeMapIsExact : Prop :=
  ∀ w : Word,
    (decode w = .command .config ↔ w = 0x00000001) ∧ (decode w = .command .write ↔ w = 0x00000002) ∧
    (decode w = .command .readi ↔ w = 0x00000003) ∧ (decode w = .command .reado ↔ w = 0x00000004) ∧
    (decode w = .command .fillz ↔ w = 0x00000005) ∧ (decode w = .command .exportText ↔ w = 0x00000006) ∧
    (decode w = .command .readc ↔ w = 0x00000007) ∧
    ((∃ why, decode w = .illegal why) ↔ w.toNat = 0 ∨ 8 ≤ w.toNat)

/-- 30_encoding.md R90, R91: decoding inverts encoding in both directions, on the word and on the opcode table's numbering,
and a word that decodes to a command has legal fields. -/
def Obligations.DecodeAndEncodeAgree : Prop :=
  (∀ (i : Instr) (w : Word), i.wf = true → (decode w = .command i ↔ w = encode i)) ∧
  (∀ (i : Instr) (w : Nat), w < 2 ^ 32 → (decodeTableWord 32 w = some i ↔ w = (encode i).toNat)) ∧
  (∀ w : Word, (commandFields w).wf = true ↔ ∃ i, decode w = .command i)

/-- Words of 30_encoding.md R92 and 95_test_vectors.md V-H6, written out. -/
def Obligations.SampleWordsDecode : Prop :=
  decode 0b00000000000000000000000000000001 = .command .config ∧
  decode 0b00000000000000000000000000000010 = .command .write ∧
  decode 0b00000000000000000000000000000110 = .command .exportText ∧
  decode 0b00000000000000000000000000001000 = .illegal .reservedOpcode ∧
  decode 0b00000000000000000000000000010010 = .illegal .reservedBits ∧
  decode 0b10000000000000000000000000000010 = .illegal .reservedBits

/-! ### The step -/

/-- 40_host_port.md R119: a step of the sequencer runs the command the latched word decodes to. The second clause is the
model's own way to place a word (log entry 16). -/
def Obligations.StepRunsTheDecodedCommand : Prop :=
  (∀ (s : State) (i : Instr), s.turn = .sequencer → s.seq.phase = .run → decode s.lat.op = .command i →
    step s = exec i { s with schedule := s.schedule.tail }) ∧
  (∀ (s : State) (i : Instr), step (s.withFetchWord 32 (encode i).toNat) = exec i (s.accept (encode i)))

/-- 40_host_port.md R113: the schedule may name any agent at any time, and the agent it names takes the step. The last clause,
the order when no schedule is given, is the model's choice (log entry 7). -/
def Obligations.ScheduledAgentMoves : Prop :=
  (∀ (s : State) (rest : List Turn), s.schedule = .host :: rest → step s = ({ s with schedule := rest }).hostStep) ∧
  (∀ (s : State) (rest : List Turn), s.schedule = .sequencer :: rest → step s = ({ s with schedule := rest }).sequencerStep) ∧
  (∀ (s : State) (rest : List Turn), s.schedule = .reset :: rest → step s = .next ({ s with schedule := rest }).applyReset) ∧
  (∀ (s : State) (rest : List Turn), s.schedule = .bringUp :: rest →
    step s = .next { s with schedule := rest, windowReady := true }) ∧
  (∀ s : State, s.schedule = [] →
    step s = if s.seq.phase = .run ∧ s.awaitingSink = false then s.sequencerStep else s.hostStep)

/-- 40_host_port.md R121: which words are illegal, and that an illegal word completes with ILLEGAL_COMMAND whatever CONFIGURED
is, and nothing else changes. -/
def Obligations.IllegalWordIsRejected : Prop :=
  (∀ w : Word, (∃ why, decode w = .illegal why) ↔
    (commandFields w).rsv ≠ 0 ∨ (commandFields w).op.toNat = 0 ∨ 8 ≤ (commandFields w).op.toNat) ∧
  ∀ s : State, s.seq.phase = .run → (∃ why, decode s.lat.op = .illegal why) →
    s.sequencerStep = .next { s with status := { s.status with busy := false, err := .illegalCommand },
                                     seq := { s.seq with phase := .idle } }

/-- 40_host_port.md R120: a legal command other than CONFIG, accepted without an instance, completes with NOT_CONFIGURED, and
nothing else changes: no memory access, no sink byte, no register. -/
def Obligations.CommandsNeedAnInstance : Prop :=
  ∀ (s : State) (i : Instr), i ≠ .config → s.firstStep = true → s.status.configured = false →
    exec i s = .next { s with status := { s.status with busy := false, err := .notConfigured },
                              seq := { s.seq with phase := .idle } }

/-- 40_host_port.md R119 and 60_exceptions.md R202: the code after the first step of any accepted word, in the order of
priority. -/
def Obligations.FirstStepReportsTheFirstErrorThatApplies : Prop :=
  ∀ (s : State) (w : Word), (s.status.configured = true → 0 < s.regs.capacity.toNat) →
    ∃ t, (s.accept w).sequencerStep = .next t ∧
      t.status.err =
        match decode w with
        | .illegal _ => ErrCode.illegalCommand
        | .command i =>
          if i = .config then (if s.regs.opa.toNat = 0 then ErrCode.invalidConfiguration else .ok)
          else if s.status.configured = false then .notConfigured
          else if i = .readc ∧ s.regs.capacity.toNat ≤ s.regs.opa.toNat then .indexOutOfRange
          else .ok

/-- 60_exceptions.md R202: the one code a completion reports, the first that applies in the rule's order, whenever in a run the
command completes. -/
def Obligations.CompletionReportsTheFirstErrorThatApplies : Prop :=
  ∀ s t : State, s.Inv → step s = .next t → completesIn s t →
    t.status.err =
      match decode s.lat.op with
      | .illegal _ => ErrCode.illegalCommand
      | .command i =>
        if i ≠ .config ∧ s.status.configured = false then .notConfigured
        else if i = .config ∧ s.lat.a.toNat = 0 then .invalidConfiguration
        else if i = .readc ∧ s.regs.capacity.toNat ≤ s.lat.a.toNat then .indexOutOfRange
        else if i = .exportText ∧ s.sink.answers.head? = some .fail then .exportFailed
        else .ok

/-- 70_reset_and_hazards.md R250 and 40_host_port.md R122: every accepted word but FILLZ and EXPORT completes in the first
step. -/
def Obligations.OneStepCommandsCompleteAtOnce : Prop :=
  ∀ (s : State) (w : Word), decode w ≠ .command .fillz → decode w ≠ .command .exportText →
    ∃ t, (s.accept w).sequencerStep = .next t ∧ t.status.busy = false ∧ t.seq.phase = .idle

/-! ### The host port -/

/-- 60_exceptions.md R200 and 10_state.md R23: STATUS as the host reads it, bit by bit, with the number of each code. -/
def Obligations.StatusReadsItsFields : Prop :=
  ∀ s : State,
    (s.hostRead .status).getLsbD 0 = s.status.busy ∧ (s.hostRead .status).getLsbD 1 = s.status.configured ∧
    (s.hostRead .status).getLsbD 2 = s.status.durValid ∧ (s.hostRead .status).getLsbD 3 = s.status.ovr ∧
    (s.hostRead .status).extractLsb' 4 4 = 0 ∧ (s.hostRead .status).extractLsb' 12 20 = 0 ∧
    ((s.hostRead .status).extractLsb' 8 4).toNat =
      match s.status.err with
      | .ok => 0
      | .invalidConfiguration => 1
      | .exportFailed => 2
      | .notConfigured => 3
      | .illegalCommand => 4
      | .indexOutOfRange => 5

/-- 10_state.md R32: the fields of PARAMS, and its value with the default parameters. -/
def Obligations.ParamsReadsItsFields : Prop :=
  (∀ s : State, s.params.wf = true →
    ((s.hostRead .params).extractLsb' 0 3).toNat = s.params.wordBytes.count ∧
    (s.hostRead .params).getLsbD 3 = false ∧
    ((s.hostRead .params).getLsbD 4 = true ↔ s.params.tokenMode = .minimal) ∧
    (s.hostRead .params).extractLsb' 5 3 = 0 ∧
    ((s.hostRead .params).extractLsb' 8 6).toNat = s.params.tickBits ∧
    (s.hostRead .params).extractLsb' 14 2 = 0 ∧
    ((s.hostRead .params).extractLsb' 16 6).toNat = 32 ∧
    (s.hostRead .params).extractLsb' 22 2 = 0 ∧
    ((s.hostRead .params).extractLsb' 24 4).toNat = 1 ∧
    (s.hostRead .params).extractLsb' 28 4 = 0) ∧
  (∀ s : State, s.params = Params.default → s.hostRead .params = 0x01202002) ∧
  (∀ (s : State) (d : Word), s.hostWrite .params d = s)

/-- 40_host_port.md R111: what a read at each offset returns to the host, and that it has no side effect. -/
def Obligations.HostReadsReturnTheRegister : Prop :=
  ∀ (s : State) (off : Nat) (rest : List HostOp) (v : Word),
    (off, v) ∈ [(0x00, (0 : Word)), (0x04, statusWord s.status), (0x08, s.regs.opa), (0x0C, s.regs.opb), (0x10, s.regs.opc),
      (0x14, s.regs.result), (0x18, s.regs.capacity), (0x1C, s.regs.base), (0x20, s.regs.increment), (0x24, s.regs.cursor),
      (0x28, BitVec.ofNat 32 (s.regs.duration.toNat % 2 ^ s.params.tickBits)), (0x2C, paramsWord s.params),
      (0x30, 0), (0x34, 0), (0x38, 0), (0x3C, 0)] →
    s.host.script = .access { addr := s.params.hostBase + off, size := 4, kind := .read } :: rest →
    s.hostStep = .next { s with host := { script := rest, reads := s.host.reads ++ [v] } }

/-- 40_host_port.md R112: what a write at each offset does; read-only and reserved offsets ignore it. A write to CMD is
`cmd_write(d)`, which the two statements below give. -/
def Obligations.HostWritesReachOnlyTheirRegister : Prop :=
  ∀ (s : State) (off : Nat) (d : Word) (rest : List HostOp),
    off % 4 = 0 → off ≤ 0x3C →
    s.host.script = .access { addr := s.params.hostBase + off, size := 4, kind := .write d } :: rest →
    (off = 0x00 → s.hostStep = .next (({ s with host := { s.host with script := rest } }).cmdWrite d)) ∧
    (off ≠ 0x00 → s.hostStep = .next { s with
      host := { s.host with script := rest }
      status := { s.status with ovr := if off = 0x04 ∧ d.getLsbD 3 = true then false else s.status.ovr }
      regs := { s.regs with
        opa := if off = 0x08 then d else s.regs.opa
        opb := if off = 0x0C then d else s.regs.opb
        opc := if off = 0x10 then d else s.regs.opc } })

/-- 40_host_port.md R114, R115, R117: a CMD write while BUSY = 0 accepts the word, legal or not, in one step. For
EXPORT `seq.t0` is a sample of the tick, some value of `TICK_BITS` bits (log entry 6). R114's pseudocode samples for every word;
60_exceptions.md R214 and 90_conflicts.md C3 say that only EXPORT does, and that any other word leaves `seq.t0` is the model's
reading (log entry 23). -/
def Obligations.CommandWriteWhileIdleIsAccepted : Prop :=
  ∀ (s : State) (w : Word) (rest : List HostOp), s.status.busy = false →
    s.host.script = .access { addr := s.params.hostBase, size := 4, kind := .write w } :: rest →
    ∃ t0 : Word,
      (decode w = .command .exportText → t0.toNat < 2 ^ s.params.tickBits) ∧
      (decode w ≠ .command .exportText → t0 = s.seq.t0) ∧
      s.hostStep = .next { s with
        host := { s.host with script := rest }
        lat := { op := w, a := s.regs.opa, b := s.regs.opb, c := s.regs.opc }
        status := { s.status with busy := true, err := .ok }
        seq := { phase := .run, i := 0, word := 0, bytes := [], t0 := t0 }
        draws := if decode w = .command .exportText then s.draws + 1 else s.draws }

/-- 40_host_port.md R116: a CMD write while BUSY = 1 is dropped and sets OVR, and OVR stays 1 until the host clears it or
reset. -/
def Obligations.CommandWriteWhileBusyIsDropped : Prop :=
  (∀ (s : State) (w : Word) (rest : List HostOp), s.status.busy = true →
    s.host.script = .access { addr := s.params.hostBase, size := 4, kind := .write w } :: rest →
    s.hostStep = .next { s with host := { s.host with script := rest }, status := { s.status with ovr := true } }) ∧
  (∀ s t : State, step s = .next t → s.status.ovr = true → s.turn ≠ .reset →
    (¬ ∃ d, s.hostWrites .status d ∧ d.getLsbD 3 = true) → t.status.ovr = true)

/-- 40_host_port.md R110: an access outside the admitted form is refused by name, and every access of the form completes. R110
lists a narrower access, a misaligned one and one beyond 0x3C within the block's decode range; that the first clause refuses a
wider access, one below `HOST_BASE` and any above 0x3C as well is the model's reading of "any other access" (log entry 24,
DEDUCED). -/
def Obligations.NarrowAccessesAreRefused : Prop :=
  ∀ (s : State) (a : HostAccess) (rest : List HostOp), s.host.script = .access a :: rest →
    (a.wf s.params.hostBase = false → s.hostStep = .refused .hostNarrow) ∧
    (a.wf s.params.hostBase = true → ∃ t, s.hostStep = .next t ∧ t.host.script = rest)

/-- 30_encoding.md R97: `WR OPA, a` ; `WR CMD, w` ; `WAIT` is the call of the command, for every word that completes in one
step, when the sequencer moves whenever it has a step (the model's order when no schedule is given, log entry 7). -/
def Obligations.HostScriptIsASynchronousCall : Prop :=
  ∀ (s : State) (w a : Word) (rest : List HostOp), s.schedule = [] → s.seq.phase = .idle → s.status.busy = false →
    decode w ≠ .command .fillz → decode w ≠ .command .exportText →
    s.host.script = hostWR s.params.hostBase .opa a :: hostWR s.params.hostBase .cmd w :: .wait :: rest →
    ∃ t, s.call w a = .next t ∧
      Host.Core.run core 4 s =
        .next { t with host := { script := rest, reads := s.host.reads ++ [statusWord t.status] } }

/-! ### CONFIG -/

/-- 41_construction.md R130: CONFIG, both branches. A non-zero capacity installs the instance; the mark is R132's. -/
def Obligations.ConfigInstallsTheInstance : Prop :=
  decode 0x00000001 = .command .config ∧
  (∀ s : State, s.lat.a.toNat = 0 →
    exec .config s = .next { s with
      status := { s.status with busy := false, configured := false, err := .invalidConfiguration }
      seq := { s.seq with phase := .idle } }) ∧
  ∀ s : State, s.lat.a.toNat ≠ 0 →
    exec .config s = .next { s with
      regs := { s.regs with capacity := s.lat.a, base := s.lat.b, increment := s.lat.c, cursor := 0, duration := 0 }
      status := { busy := false, configured := true, durValid := false, ovr := s.status.ovr, err := .ok }
      seq := { s.seq with phase := .idle }
      marks := { s.marks with cfgOutOfContract :=
        if s.lat.c.toNat < s.wordBytes ∨ s.lat.b.toNat + s.lat.c.toNat * s.lat.a.toNat > 2 ^ 32 then true
        else s.marks.cfgOutOfContract } }

/-- 41_construction.md R131: a CONFIG with capacity 0 destroys the instance and changes nothing else; without an instance every
command but CONFIG is rejected; and only a CONFIG that succeeds ends that. -/
def Obligations.ConfigWithCapacityZeroDestroysTheInstance : Prop :=
  (∀ s : State, s.lat.a.toNat = 0 →
    exec .config s = .next { s with
      status := { s.status with busy := false, configured := false, err := .invalidConfiguration }
      seq := { s.seq with phase := .idle } }) ∧
  (∀ (s : State) (i : Instr), s.status.configured = false → i ≠ .config →
    ∃ t, (s.accept (encode i)).sequencerStep = .next t ∧
      t.status = { s.status with busy := false, err := .notConfigured } ∧ t.regs = s.regs ∧ t.mem = s.mem ∧ t.sink = s.sink) ∧
  (∀ s t : State, step s = .next t → s.status.configured = false → t.status.configured = true →
    s.runs .config ∧ s.lat.a.toNat ≠ 0)

/-! ### Addresses and the window -/

/-- 20_memory.md R70, R71: the physical address of each command. -/
def Obligations.AddressesAreTranslatedModulo : Prop :=
  ∀ s : State,
    (∀ i : Nat, (s.addrOf i).toNat = (s.regs.base.toNat + s.regs.increment.toNat * i) % 2 ^ 32) ∧
    s.writeAddr = s.addrOf s.regs.cursor.toNat ∧ s.indexAddr = s.addrOf s.lat.a.toNat ∧
    s.bulkAddr = s.addrOf s.seq.i.toNat ∧
    s.offsetAddr.toNat = (s.regs.base.toNat + s.lat.a.toNat) % 2 ^ 32

/-- 20_memory.md R72: under an in-contract configuration every slot lies inside the window. -/
def Obligations.SlotsLieInsideTheWindow : Prop :=
  ∀ (s : State) (i : Nat), s.windowInContract → i < s.regs.capacity.toNat → s.inWindow (s.addrOf i) = true

/-- 20_memory.md R76: with INCREMENT ≥ WORD_BYTES, the slots of distinct indices below 2^32 / INCREMENT (rounded down) do not
overlap. The indices below the capacity of an in-contract configuration are such indices. -/
def Obligations.SlotsDoNotOverlap : Prop :=
  (∀ (s : State) (i j : Nat) (x : Word), s.wordBytes ≤ s.regs.increment.toNat →
    i < 2 ^ 32 / s.regs.increment.toNat → j < 2 ^ 32 / s.regs.increment.toNat →
    inBytes (s.addrOf i) s.wordBytes x → inBytes (s.addrOf j) s.wordBytes x → i = j) ∧
  (∀ (s : State) (i : Nat), s.windowInContract → i < s.regs.capacity.toNat →
    s.wordBytes ≤ s.regs.increment.toNat ∧ i < 2 ^ 32 / s.regs.increment.toNat)

/-! ### Word access -/

/-- 42_word_access.md R140, R142 and 20_memory.md R63: WRITE stores the truncated operand, little-endian, at the cursor's slot
and advances the cursor circularly. Under `OPEN` a misaligned slot gets some bytes or other (20_memory.md R66). -/
def Obligations.WriteStoresAtTheCursorAndAdvances : Prop :=
  decode 0x00000002 = .command .write ∧
  ∀ s : State, s.mem.wf → s.status.configured = true →
    ∃ t, exec .write s = .next t ∧
      t = { s with
        mem := t.mem
        draws := t.draws
        regs := { s.regs with
          cursor := if s.regs.cursor.toNat + 1 = s.regs.capacity.toNat then 0 else s.regs.cursor + 1 }
        status := { s.status with busy := false, err := .ok }
        seq := { s.seq with phase := .idle } } ∧
      (s.byteExact s.writeAddr = true → ∀ k : Nat, k < s.wordBytes →
        t.byteAt (s.writeAddr + BitVec.ofNat 32 k) = s.lat.a.extractLsb' (8 * k) 8) ∧
      memFrame s t s.writeAddr

/-- 42_word_access.md R145, R150, R160 and 20_memory.md R62: an aligned (or `SPLIT_LE`) read inside the window puts the
little-endian word, zero-extended, into RESULT and changes nothing else. -/
def Obligations.ReadsReturnTheWordInTheWindow : Prop :=
  ∀ (s : State) (i : Instr) (a : Word), s.status.configured = true →
    ((i = .readi ∧ a = s.indexAddr) ∨ (i = .reado ∧ a = s.offsetAddr) ∨
      (i = .readc ∧ a = s.indexAddr ∧ s.lat.a.toNat < s.regs.capacity.toNat)) →
    s.inWindow a = true → s.byteExact a = true →
    exec i s = .next { s with
      regs := { s.regs with
        result := BitVec.ofNat 32 ((List.range s.wordBytes).map
          (fun k => (s.byteAt (a + BitVec.ofNat 32 k)).toNat * 2 ^ (8 * k))).sum }
      status := { s.status with busy := false, err := .ok }
      seq := { s.seq with phase := .idle } }

/-- 20_memory.md R68 and 42_word_access.md R146: a read with a byte outside the window completes without error; RESULT is
some word of `WORD_BITS` bits, the event is recorded, and nothing else changes. That such a read changes no byte of memory is
ASSUMED: R68 marks it so (log entry 12, UNVERIFIED, unsafe). That it is one draw with the event whatever its alignment is the
model's reading (log entry 11, DEDUCED). -/
def Obligations.ReadsOutsideTheWindowAreDrawn : Prop :=
  ∀ (s : State) (i : Instr) (a : Word), s.status.configured = true →
    ((i = .readi ∧ a = s.indexAddr) ∨ (i = .reado ∧ a = s.offsetAddr) ∨
      (i = .readc ∧ a = s.indexAddr ∧ s.lat.a.toNat < s.regs.capacity.toNat)) →
    (∃ k : Nat, k < s.wordBytes ∧
      ((a + BitVec.ofNat 32 k).toNat < s.regs.base.toNat ∨
        s.regs.base.toNat + s.regs.increment.toNat * s.regs.capacity.toNat ≤ (a + BitVec.ofNat 32 k).toNat)) →
    ∃ v : Word, v.toNat < 2 ^ s.params.wordBits ∧
      exec i s = .next { s with
        regs := { s.regs with result := v }
        status := { s.status with busy := false, err := .ok }
        seq := { s.seq with phase := .idle }
        marks := { s.marks with oowReads := s.marks.oowReads ++ [a] }
        draws := s.draws + 1 }

/-- 20_memory.md R66 and 42_word_access.md R152: under `OPEN` a misaligned read inside the window gives some word of
`WORD_BITS` bits, with no error and no event. -/
def Obligations.MisalignedReadsAreDrawnUnderOpen : Prop :=
  ∀ (s : State) (i : Instr) (a : Word), s.status.configured = true →
    ((i = .readi ∧ a = s.indexAddr) ∨ (i = .reado ∧ a = s.offsetAddr) ∨
      (i = .readc ∧ a = s.indexAddr ∧ s.lat.a.toNat < s.regs.capacity.toNat)) →
    s.inWindow a = true → s.params.misalignedMode = .openDraw → a.toNat % s.wordBytes ≠ 0 →
    ∃ v : Word, v.toNat < 2 ^ s.params.wordBits ∧
      exec i s = .next { s with
        regs := { s.regs with result := v }
        status := { s.status with busy := false, err := .ok }
        seq := { s.seq with phase := .idle }
        draws := s.draws + 1 }

/-- 42_word_access.md R160, R161: READC with an index not below CAPACITY fails with no access and leaves RESULT. -/
def Obligations.ReadcRejectsAnIndexOutOfRange : Prop :=
  decode 0x00000007 = .command .readc ∧
  ∀ s : State, s.status.configured = true → s.regs.capacity.toNat ≤ s.lat.a.toNat →
    exec .readc s = .next { s with status := { s.status with busy := false, err := .indexOutOfRange },
                                   seq := { s.seq with phase := .idle } }

/-- 60_exceptions.md R201: with an instance, WRITE, READI and READO complete with ERR = 0 whatever the operands, and FILLZ
never reports an error. -/
def Obligations.UncheckedCommandsNeverRaise : Prop :=
  ∀ s : State, s.status.configured = true →
    (∀ i : Instr, i = .write ∨ i = .readi ∨ i = .reado →
      ∃ t, exec i s = .next t ∧ t.status.err = .ok ∧ t.status.busy = false) ∧
    ∃ t, exec .fillz s = .next t ∧
      (t.status = s.status ∨ (t.status.err = .ok ∧ t.status.busy = false))

/-- 42_word_access.md R151: for a valid index, READI i and READO (INCREMENT × i) give the same RESULT. -/
def Obligations.IndexedAndOffsetReadsAgree : Prop :=
  ∀ (s : State) (i : Nat), s.status.configured = true → s.status.busy = false → s.windowInContract →
    i < s.regs.capacity.toNat → s.byteExact (s.addrOf i) = true →
    ∃ t u, s.call (encode .readi) (BitVec.ofNat 32 i) = .next t ∧
      s.call (encode .reado) (BitVec.ofNat 32 (s.regs.increment.toNat * i)) = .next u ∧
      t.regs.result = u.regs.result ∧ t.regs.result = s.slotWord i ∧ t.mem = s.mem ∧ u.mem = s.mem

/-- 20_memory.md R77: a read of a slot after a WRITE to it returns the word written. -/
def Obligations.ReadAfterWriteReturnsTheWord : Prop :=
  ∀ (s : State) (v : Word), s.mem.wf → s.status.configured = true → s.status.busy = false → s.windowInContract →
    s.regs.cursor.toNat < s.regs.capacity.toNat → s.byteExact s.writeAddr = true →
    ∃ t u, s.call (encode .write) v = .next t ∧ t.call (encode .readi) s.regs.cursor = .next u ∧
      u.regs.result.toNat = v.toNat % 2 ^ s.params.wordBits ∧ u.status.err = .ok

/-- 42_word_access.md R141: from CURSOR = 0, after n WRITEs CURSOR = n mod C, and the next WRITE touches slot n mod C alone. -/
def Obligations.WriteSequenceLaw : Prop :=
  ∀ (s : State) (vs : List Word), s.mem.wf → s.status.configured = true → s.status.busy = false →
    s.regs.cursor = 0 → 0 < s.regs.capacity.toNat →
    ∃ t, State.callWrites vs s = .next t ∧
      t.regs.cursor.toNat = vs.length % s.regs.capacity.toNat ∧
      t.regs.capacity = s.regs.capacity ∧ t.regs.base = s.regs.base ∧ t.regs.increment = s.regs.increment ∧
      t.regs.result = s.regs.result ∧ t.status.err = (if vs = [] then s.status.err else .ok) ∧
      ∀ v : Word, ∃ u, State.callWrites (vs ++ [v]) s = .next u ∧
        memFrame t u (s.addrOf (vs.length % s.regs.capacity.toNat)) ∧
        (s.byteExact (s.addrOf (vs.length % s.regs.capacity.toNat)) = true → ∀ k : Nat, k < s.wordBytes →
          u.byteAt (s.addrOf (vs.length % s.regs.capacity.toNat) + BitVec.ofNat 32 k) = v.extractLsb' (8 * k) 8)

/-- 42_word_access.md R141 with 20_memory.md R76: the circular buffer. After any run of WRITEs, each slot holds the last word
written to it: the k-th word of the run is still in slot k mod C when fewer than C words followed it. -/
def Obligations.CircularBufferHoldsTheLastLap : Prop :=
  ∀ (s : State) (vs : List Word), s.mem.wf → s.status.configured = true → s.status.busy = false →
    s.regs.cursor = 0 → 0 < s.regs.capacity.toNat → s.windowInContract → s.slotsByteExact →
    ∃ t, State.callWrites vs s = .next t ∧
      ∀ (k : Nat) (h : k < vs.length), vs.length ≤ k + s.regs.capacity.toNat →
        (t.slotWord (k % s.regs.capacity.toNat)).toNat = vs[k].toNat % 2 ^ s.params.wordBits

/-! ### FILLZ -/

/-- 43_bulk.md R170: one step of FILLZ writes 0 at slot `seq.i`; the last one sets CURSOR to 0 and completes. -/
def Obligations.FillzZeroesOneSlotPerStep : Prop :=
  decode 0x00000005 = .command .fillz ∧
  ∀ s : State, s.mem.wf → s.status.configured = true → 0 < s.regs.capacity.toNat →
    ∃ t, exec .fillz s = .next t ∧
      (s.seq.i.toNat + 1 ≠ s.regs.capacity.toNat →
        t = { s with mem := t.mem, draws := t.draws, seq := { s.seq with i := s.seq.i + 1 } }) ∧
      (s.seq.i.toNat + 1 = s.regs.capacity.toNat →
        t = { s with
          mem := t.mem
          draws := t.draws
          regs := { s.regs with cursor := 0 }
          status := { s.status with busy := false, err := .ok }
          seq := { s.seq with i := s.seq.i + 1, phase := .idle } }) ∧
      (s.byteExact s.bulkAddr = true → ∀ k : Nat, k < s.wordBytes → t.byteAt (s.bulkAddr + BitVec.ofNat 32 k) = 0) ∧
      memFrame s t s.bulkAddr

/-- 43_bulk.md R171, R170: FILLZ completes after CAPACITY steps with CURSOR = 0; every slot then reads 0, and every byte outside
the slots is as before. -/
def Obligations.FillzZeroesTheWindow : Prop :=
  ∀ s : State, s.mem.wf → s.starts .fillz →
    ∃ t, State.sequencerSteps s.regs.capacity.toNat s = .next t ∧
      t.status = { s.status with busy := false, err := .ok } ∧ t.seq.phase = .idle ∧
      t.regs = { s.regs with cursor := 0 } ∧ t.sink = s.sink ∧ t.marks = s.marks ∧
      (∀ x : Word, (∀ i, i < s.regs.capacity.toNat → ¬ s.touched (s.addrOf i) x) → t.byteAt x = s.byteAt x) ∧
      (s.slotsByteExact →
        (∀ i k : Nat, i < s.regs.capacity.toNat → k < s.wordBytes → t.byteAt (s.addrOf i + BitVec.ofNat 32 k) = 0) ∧
        (s.windowInContract → ∀ i : Nat, i < s.regs.capacity.toNat →
          ∃ u, t.call (encode .readi) (BitVec.ofNat 32 i) = .next u ∧ u.regs.result = 0 ∧ u.status.err = .ok))

/-- 70_reset_and_hazards.md R231 and 43_bulk.md R172: a FILLZ cut short by reset after n steps leaves slots 0 to n - 1 zero and
every byte outside them as it was, and no instance. -/
def Obligations.FillzCutShortKeepsItsPrefix : Prop :=
  ∀ (s : State) (n : Nat), s.mem.wf → s.starts .fillz → n < s.regs.capacity.toNat →
    ∃ t, State.sequencerSteps n s = .next t ∧
      t.seq.i.toNat = n ∧ t.status = s.status ∧ t.regs = s.regs ∧
      (∀ x : Word, (∀ i, i < n → ¬ s.touched (s.addrOf i) x) → t.applyReset.byteAt x = s.byteAt x) ∧
      (s.slotsByteExact → ∀ i k : Nat, i < n → k < s.wordBytes →
        t.applyReset.byteAt (s.addrOf i + BitVec.ofNat 32 k) = 0) ∧
      statusWord t.applyReset.status = 0 ∧ t.applyReset.regs.capacity = 0

/-! ### EXPORT -/

/-- 43_bulk.md R177, R179: the FIXED token, digit by digit. -/
def Obligations.FixedTokensAreAllTheDigits : Prop :=
  ∀ (p : Params) (v : Word), p.tokenMode = .fixed →
    (token p v).length = 2 * p.wordBytes.count ∧
    ∀ j : Nat, j < 2 * p.wordBytes.count →
      (token p v)[j]? = some (hexChar (v.extractLsb' (4 * (2 * p.wordBytes.count - 1 - j)) 4).toNat)

/-- 43_bulk.md R178: the MINIMAL token is the FIXED one without its leading zeros, and "0" for the word 0. -/
def Obligations.MinimalTokensDropLeadingZeros : Prop :=
  ∀ (p : Params) (v : Word), p.tokenMode = .minimal → v.toNat < 2 ^ p.wordBits →
    (v = 0 → token p v = [0x30]) ∧
    (v ≠ 0 → (∃ n : Nat, token { p with tokenMode := .fixed } v = List.replicate n 0x30 ++ token p v) ∧
      (token p v).head? ≠ some 0x30 ∧ token p v ≠ [])

/-- 43_bulk.md R179: the bytes of the digits. -/
def Obligations.DigitBytesAreUppercaseHex : Prop :=
  ∀ n : Nat, n ≤ 15 →
    (n ≤ 9 → (hexChar n).toNat = 0x30 + n) ∧ (10 ≤ n → (hexChar n).toNat = 0x41 + (n - 10))

/-- 43_bulk.md R175: the read step. Inside the window and byte-exact it reads the slot's word; elsewhere some word of
`WORD_BITS` bits (20_memory.md R66, R68), with the event when the slot is not inside the window. In the second clause, that a
read outside the window changes no byte of memory is ASSUMED: R68 marks it so (log entry 12, UNVERIFIED, unsafe); that it is one
draw with the event whatever its alignment is the model's reading (log entry 11, DEDUCED). -/
def Obligations.ExportReadsASlotThenQueuesItsToken : Prop :=
  decode 0x00000006 = .command .exportText ∧
  ∀ s : State, s.status.configured = true → s.seq.bytes = [] → s.seq.i.toNat < s.regs.capacity.toNat →
    (s.inWindow s.bulkAddr = true → s.byteExact s.bulkAddr = true →
      exec .exportText s = .next { s with
        seq := { s.seq with
          word := s.slotWord s.seq.i.toNat
          bytes := token s.params (s.slotWord s.seq.i.toNat) ++ [0x20]
          i := s.seq.i + 1 } }) ∧
    (s.inWindow s.bulkAddr = false ∨ s.byteExact s.bulkAddr = false →
      ∃ v : Word, v.toNat < 2 ^ s.params.wordBits ∧
        exec .exportText s = .next { s with
          seq := { s.seq with word := v, bytes := token s.params v ++ [0x20], i := s.seq.i + 1 }
          marks := { s.marks with
            oowReads := if s.inWindow s.bulkAddr then s.marks.oowReads else s.marks.oowReads ++ [s.bulkAddr] }
          draws := s.draws + 1 })

/-- 43_bulk.md R175, R184: a byte step whose byte the sink accepts: the byte joins the stream; the last byte of the last slot
ends the pass, with a duration measured from `seq.t0` to some sample of the tick. -/
def Obligations.ExportSendsAByteAndEndsThePass : Prop :=
  ∀ (s : State) (b : Byte) (rest : List Byte) (answers : List SinkAnswer),
    s.seq.bytes = b :: rest → s.sink.answers = .accept :: answers →
    ((rest ≠ [] ∨ s.seq.i.toNat ≠ s.regs.capacity.toNat) →
      exec .exportText s = .next { s with
        sink := { stream := s.sink.stream ++ [b], answers := answers }
        seq := { s.seq with bytes := rest } }) ∧
    (rest = [] ∧ s.seq.i.toNat = s.regs.capacity.toNat →
      ∃ t1 : Word, t1.toNat < 2 ^ s.params.tickBits ∧
        exec .exportText s = .next { s with
          sink := { stream := s.sink.stream ++ [b], answers := answers }
          regs := { s.regs with cursor := 0, duration := BitVec.ofNat 32 ((t1 - s.seq.t0).toNat % 2 ^ s.params.tickBits) }
          status := { s.status with busy := false, durValid := true, err := .ok }
          seq := { s.seq with bytes := [], phase := .idle }
          draws := s.draws + 1 })

/-- 43_bulk.md R182: a byte the sink fails ends EXPORT at once with EXPORT_FAILED; the stream, the memory and every register
stay. -/
def Obligations.ExportFailsAtOnce : Prop :=
  ∀ (s : State) (b : Byte) (rest : List Byte) (answers : List SinkAnswer),
    s.seq.bytes = b :: rest → s.sink.answers = .fail :: answers →
    exec .exportText s = .next { s with
      sink := { s.sink with answers := answers }
      status := { s.status with busy := false, err := .exportFailed }
      seq := { s.seq with phase := .idle } }

/-- 70_reset_and_hazards.md R245 and 43_bulk.md R180, R182: while the sink does not answer, no step but reset ends the wait:
BUSY stays 1, nothing is sent, and no register but the operands changes. -/
def Obligations.SilentSinkHoldsTheExport : Prop :=
  ∀ s t : State, s.awaitingSink = true → s.status.busy = true → step s = .next t → s.turn ≠ .reset →
    t.awaitingSink = true ∧ t.status.busy = true ∧ t.status.err = s.status.err ∧ t.seq = s.seq ∧ t.lat = s.lat ∧
    t.sink = s.sink ∧ t.mem = s.mem ∧
    t.regs = { s.regs with opa := t.regs.opa, opb := t.regs.opb, opc := t.regs.opc } ∧
    ((∃ w, s.hostWrites .cmd w) → t.status.ovr = true)

/-- 43_bulk.md R183, R176: with a sink that accepts every byte, EXPORT emits the token of each slot in ascending order, each
followed by a space, and ends with CURSOR = 0 and DUR_VALID = 1. -/
def Obligations.ExportEmitsTheWindow : Prop :=
  ∀ (s : State) (answers : List SinkAnswer), s.starts .exportText → s.windowInContract → s.slotsByteExact →
    s.sink.answers = List.replicate s.exportedText.length .accept ++ answers →
    ∃ t, State.sequencerSteps (s.regs.capacity.toNat + s.exportedText.length) s = .next t ∧
      t.sink = { stream := s.sink.stream ++ s.exportedText, answers := answers } ∧
      t.status = { s.status with busy := false, durValid := true, err := .ok } ∧ t.seq.phase = .idle ∧
      t.regs = { s.regs with cursor := 0, duration := t.regs.duration } ∧
      t.regs.duration.toNat < 2 ^ s.params.tickBits ∧
      t.mem = s.mem ∧ t.marks = s.marks ∧
      (s.params.tokenMode = .fixed → s.exportedText.length = s.regs.capacity.toNat * (2 * s.wordBytes + 1))

/-- 43_bulk.md R182 over the whole pass: a sink that fails the byte after the first n leaves exactly the first n bytes of the
text in the stream, and CURSOR, DURATION, DUR_VALID, RESULT and the memory as they were. -/
def Obligations.FailedExportKeepsTheAcceptedPrefix : Prop :=
  ∀ (s : State) (n : Nat) (answers : List SinkAnswer), s.starts .exportText → s.windowInContract → s.slotsByteExact →
    n < s.exportedText.length →
    s.sink.answers = List.replicate n .accept ++ .fail :: answers →
    ∃ m t, m ≤ s.regs.capacity.toNat + s.exportedText.length ∧ State.sequencerSteps m s = .next t ∧
      t.sink = { stream := s.sink.stream ++ s.exportedText.take n, answers := answers } ∧
      t.status = { s.status with busy := false, err := .exportFailed } ∧ t.regs = s.regs ∧ t.mem = s.mem

/-! ### Reset -/

/-- 70_reset_and_hazards.md R230 and 10_state.md R42: what reset sets and what it leaves. -/
def Obligations.ResetClearsTheBlock : Prop :=
  ∀ s : State, s.turn = .reset →
    ∃ t, step s = .next t ∧
      t.status = { busy := false, configured := false, durValid := false, ovr := false, err := .ok } ∧
      statusWord t.status = 0 ∧
      t.regs = { opa := 0, opb := 0, opc := 0, result := 0, capacity := 0, base := 0, increment := 0, cursor := 0,
                 duration := 0 } ∧
      t.lat = { op := 0, a := 0, b := 0, c := 0 } ∧
      t.seq = { phase := .idle, i := 0, word := 0, bytes := [], t0 := 0 } ∧
      t.hostRead .params = s.hostRead .params ∧ t.params = s.params ∧ t.mem = s.mem ∧ t.sink = s.sink

/-! ### The whole machine -/

/-- 10_state.md R34: each flag is set and cleared by exactly its events. -/
def Obligations.FlagsChangeOnlyByTheirEvents : Prop :=
  ∀ s t : State, step s = .next t →
    (t.status.busy = true ↔
      (∃ w, s.hostWrites .cmd w) ∨ (s.status.busy = true ∧ s.turn ≠ .reset ∧ ¬ completesIn s t)) ∧
    (t.status.configured = true ↔
      (s.runs .config ∧ s.lat.a.toNat ≠ 0) ∨
      (s.status.configured = true ∧ s.turn ≠ .reset ∧ ¬ (s.runs .config ∧ s.lat.a.toNat = 0))) ∧
    (t.status.durValid = true ↔
      s.exportEnds ∨ (s.status.durValid = true ∧ s.turn ≠ .reset ∧ ¬ (s.runs .config ∧ s.lat.a.toNat ≠ 0))) ∧
    (t.status.ovr = true ↔
      (s.status.busy = true ∧ ∃ w, s.hostWrites .cmd w) ∨
      (s.status.ovr = true ∧ s.turn ≠ .reset ∧ ¬ ∃ d, s.hostWrites .status d ∧ d.getLsbD 3 = true))

/-- 10_state.md R37 (and R117): outside a completion and a reset, no visible register changes but the operands; ERR is cleared
by an acceptance alone. -/
def Obligations.RegistersChangeOnlyAtCompletion : Prop :=
  ∀ s t : State, step s = .next t → s.turn ≠ .reset → ¬ completesIn s t →
    t.params = s.params ∧
    t.regs = { s.regs with opa := t.regs.opa, opb := t.regs.opb, opc := t.regs.opc } ∧
    t.status.configured = s.status.configured ∧ t.status.durValid = s.status.durValid ∧
    ((s.status.busy = false ∧ ∃ w, s.hostWrites .cmd w) → t.status.err = .ok) ∧
    ((s.status.busy = true ∨ ¬ ∃ w, s.hostWrites .cmd w) → t.status.err = s.status.err) ∧
    (t.regs.opa ≠ s.regs.opa → ∃ d, s.hostWrites .opa d ∧ t.regs.opa = d) ∧
    (t.regs.opb ≠ s.regs.opb → ∃ d, s.hostWrites .opb d ∧ t.regs.opb = d) ∧
    (t.regs.opc ≠ s.regs.opc → ∃ d, s.hostWrites .opc d ∧ t.regs.opc = d)

/-- 10_state.md R27, R28, R30, R36: the only commands that write each register. -/
def Obligations.RegistersHaveFewWriters : Prop :=
  ∀ s t : State, step s = .next t → s.turn ≠ .reset →
    (¬ s.runs .config →
      t.regs.capacity = s.regs.capacity ∧ t.regs.base = s.regs.base ∧ t.regs.increment = s.regs.increment) ∧
    (¬ s.runs .config → ¬ s.runs .write → ¬ s.runs .fillz → ¬ s.runs .exportText → t.regs.cursor = s.regs.cursor) ∧
    (¬ s.runs .readi → ¬ s.runs .reado → ¬ s.runs .readc → t.regs.result = s.regs.result) ∧
    (¬ s.runs .config → ¬ s.exportEnds → t.regs.duration = s.regs.duration) ∧
    (s.runs .config → s.lat.a.toNat = 0 → t.regs = s.regs)

/-- 20_memory.md R60, R68, R83 and 43_bulk.md R175: only WRITE and FILLZ change memory, and only EXPORT's byte step adds to the
sink's stream, one byte at a time. For a READI, READO, READC or EXPORT read outside the window, that memory stays is ASSUMED:
R68 marks it so (log entry 12, UNVERIFIED, unsafe). -/
def Obligations.MemoryAndSinkHaveFewWriters : Prop :=
  ∀ s t : State, step s = .next t →
    (¬ s.runs .write → ¬ s.runs .fillz → t.mem = s.mem) ∧
    (t.sink.stream = s.sink.stream ∨
      (s.runs .exportText ∧ ∃ b rest, s.seq.bytes = b :: rest ∧ t.sink.stream = s.sink.stream ++ [b]))

/-- 10_state.md R41, R42 and 20_memory.md R68, R73: no step changes the parameters; the mark is sticky; events are only added. -/
def Obligations.ParametersStayAndMarksStick : Prop :=
  ∀ s t : State, step s = .next t →
    t.params = s.params ∧ (s.marks.cfgOutOfContract = true → t.marks.cfgOutOfContract = true) ∧
    (t.marks.oowReads = s.marks.oowReads ∨
      ∃ a, t.marks.oowReads = s.marks.oowReads ++ [a] ∧ s.inWindow a = false)

/-- 40_host_port.md R115: the running command reads only the latches. Changing OPA, OPB and OPC under it changes nothing else
of what the sequencer does. -/
def Obligations.RunningCommandReadsOnlyTheLatches : Prop :=
  ∀ (s : State) (x y z : Word),
    ({ s with regs := { s.regs with opa := x, opb := y, opc := z } }).sequencerStep =
      mapNext (fun t => { t with regs := { t.regs with opa := x, opb := y, opc := z } }) s.sequencerStep

/-- 30_encoding.md R93: a command ignores the operands it does not use, and WRITE the bits above its word. -/
def Obligations.UnusedOperandsAreIgnored : Prop :=
  ∀ (s : State) (i : Instr) (x y z : Word),
    (i ≠ .config → i ≠ .fillz → i ≠ .exportText →
      exec i { s with lat := { s.lat with b := y, c := z } } =
        mapNext (fun t => { t with lat := { t.lat with b := y, c := z } }) (exec i s)) ∧
    (i = .fillz ∨ i = .exportText →
      exec i { s with lat := { s.lat with a := x, b := y, c := z } } =
        mapNext (fun t => { t with lat := { t.lat with a := x, b := y, c := z } }) (exec i s)) ∧
    (x.toNat % 2 ^ s.params.wordBits = s.lat.a.toNat % 2 ^ s.params.wordBits →
      exec .write { s with lat := { s.lat with a := x } } =
        mapNext (fun t => { t with lat := { t.lat with a := x } }) (exec .write s))

/-- 60_exceptions.md R216: no rule of the sequencer reads DURATION. -/
def Obligations.NoRuleReadsTheDuration : Prop :=
  ∀ (s : State) (d : Word),
    mapNext (fun t => { t with regs := { t.regs with duration := 0 } })
        ({ s with regs := { s.regs with duration := d } }).sequencerStep =
      mapNext (fun t => { t with regs := { t.regs with duration := 0 } }) s.sequencerStep

/-- 41_construction.md R134: neither the sequencer nor the host port can observe bring-up. -/
def Obligations.BringUpIsNotObservable : Prop :=
  ∀ (s : State) (b : Bool),
    ({ s with windowReady := b }).sequencerStep = mapNext (fun t => { t with windowReady := b }) s.sequencerStep ∧
    ({ s with windowReady := b }).hostStep = mapNext (fun t => { t with windowReady := b }) s.hostStep

/-! ### The invariant -/

/-- The state after reset meets the invariant. -/
def Obligations.ResetMeetsTheInvariant : Prop := State.reset.Inv

/-- Every step keeps the invariant: the memory's canonical form, the widths, IDLE exactly when BUSY = 0 (10_state.md R40),
ERR = 0 while BUSY (40_host_port.md R117), CURSOR < CAPACITY with an instance (10_state.md R35), the mark
(41_construction.md R132), and the range of a running command. -/
def Obligations.StepKeepsTheInvariant : Prop :=
  ∀ s t : State, s.Inv → step s = .next t → t.Inv

/-- 60_exceptions.md R203: from a state of the invariant no step faults, and the one stop is the host's access outside the
admitted form. -/
def Obligations.NoStepFaultsUnderTheInvariant : Prop :=
  ∀ s : State, s.Inv →
    (∀ f, step s ≠ .fault f) ∧
    (∀ r, step s = .refused r → s.turn = .host ∧
      ∃ a rest, s.host.script = .access a :: rest ∧ a.wf s.params.hostBase = false)

/-- 40_host_port.md R122: while a command runs, the sequencer has a step that moves, but for EXPORT waiting for the sink. -/
def Obligations.RunningSequencerMoves : Prop :=
  ∀ s : State, s.Inv → s.seq.phase = .run → s.awaitingSink = false →
    ∃ t, s.sequencerStep = .next t ∧
      (t.seq.phase = .idle ∨ t.seq.i.toNat = s.seq.i.toNat + 1 ∨
        (t.seq.i = s.seq.i ∧ t.seq.bytes.length + 1 = s.seq.bytes.length))

/-! ### The tick -/

/-- 20_memory.md R60 (item 4), 43_bulk.md R173 and 60_exceptions.md R214, as 90_conflicts.md C3 rules: only EXPORT samples the
tick, at its acceptance and at its last accepted byte. No other host access takes a draw or writes `seq.t0`, and FILLZ leaves
`seq.t0`, DURATION and DUR_VALID. That an acceptance of another word leaves `seq.t0` as it was, and the count of draws, are the
model's (log entries 23, 6). -/
def Obligations.OnlyExportSamplesTheTick : Prop :=
  ∀ s t : State, step s = .next t → s.turn ≠ .reset →
    (t.seq.t0 ≠ s.seq.t0 → s.status.busy = false ∧ ∃ w, s.hostWrites .cmd w ∧ decode w = .command .exportText) ∧
    (s.turn = .host → t.draws ≠ s.draws →
      s.status.busy = false ∧ ∃ w, s.hostWrites .cmd w ∧ decode w = .command .exportText) ∧
    (t.regs.duration ≠ s.regs.duration → s.exportEnds ∨ (s.runs .config ∧ t.regs.duration = 0)) ∧
    (s.runs .fillz →
      t.seq.t0 = s.seq.t0 ∧ t.regs.duration = s.regs.duration ∧ t.status.durValid = s.status.durValid)
end

