-- ==== Sys2Proof/Laws/State.lean ====
section
/-! SUPPORT. One lemma per field per update of State and of Status, so that no proof unfolds a record update. -/

namespace Sys2Proof.Machine

/-! ### setStatus -/

@[simp] theorem State.setStatus_params (s : State) (x : Status) : (s.setStatus x).params = s.params := rfl
@[simp] theorem State.setStatus_status (s : State) (x : Status) : (s.setStatus x).status = x := rfl
@[simp] theorem State.setStatus_regs (s : State) (x : Status) : (s.setStatus x).regs = s.regs := rfl
@[simp] theorem State.setStatus_lat (s : State) (x : Status) : (s.setStatus x).lat = s.lat := rfl
@[simp] theorem State.setStatus_seq (s : State) (x : Status) : (s.setStatus x).seq = s.seq := rfl
@[simp] theorem State.setStatus_mem (s : State) (x : Status) : (s.setStatus x).mem = s.mem := rfl
@[simp] theorem State.setStatus_sink (s : State) (x : Status) : (s.setStatus x).sink = s.sink := rfl
@[simp] theorem State.setStatus_host (s : State) (x : Status) : (s.setStatus x).host = s.host := rfl
@[simp] theorem State.setStatus_schedule (s : State) (x : Status) : (s.setStatus x).schedule = s.schedule := rfl
@[simp] theorem State.setStatus_windowReady (s : State) (x : Status) : (s.setStatus x).windowReady = s.windowReady := rfl
@[simp] theorem State.setStatus_marks (s : State) (x : Status) : (s.setStatus x).marks = s.marks := rfl
@[simp] theorem State.setStatus_draws (s : State) (x : Status) : (s.setStatus x).draws = s.draws := rfl

/-! ### setRegs -/

@[simp] theorem State.setRegs_params (s : State) (x : Regs) : (s.setRegs x).params = s.params := rfl
@[simp] theorem State.setRegs_status (s : State) (x : Regs) : (s.setRegs x).status = s.status := rfl
@[simp] theorem State.setRegs_regs (s : State) (x : Regs) : (s.setRegs x).regs = x := rfl
@[simp] theorem State.setRegs_lat (s : State) (x : Regs) : (s.setRegs x).lat = s.lat := rfl
@[simp] theorem State.setRegs_seq (s : State) (x : Regs) : (s.setRegs x).seq = s.seq := rfl
@[simp] theorem State.setRegs_mem (s : State) (x : Regs) : (s.setRegs x).mem = s.mem := rfl
@[simp] theorem State.setRegs_sink (s : State) (x : Regs) : (s.setRegs x).sink = s.sink := rfl
@[simp] theorem State.setRegs_host (s : State) (x : Regs) : (s.setRegs x).host = s.host := rfl
@[simp] theorem State.setRegs_schedule (s : State) (x : Regs) : (s.setRegs x).schedule = s.schedule := rfl
@[simp] theorem State.setRegs_windowReady (s : State) (x : Regs) : (s.setRegs x).windowReady = s.windowReady := rfl
@[simp] theorem State.setRegs_marks (s : State) (x : Regs) : (s.setRegs x).marks = s.marks := rfl
@[simp] theorem State.setRegs_draws (s : State) (x : Regs) : (s.setRegs x).draws = s.draws := rfl

/-! ### setLat -/

@[simp] theorem State.setLat_params (s : State) (x : Latches) : (s.setLat x).params = s.params := rfl
@[simp] theorem State.setLat_status (s : State) (x : Latches) : (s.setLat x).status = s.status := rfl
@[simp] theorem State.setLat_regs (s : State) (x : Latches) : (s.setLat x).regs = s.regs := rfl
@[simp] theorem State.setLat_lat (s : State) (x : Latches) : (s.setLat x).lat = x := rfl
@[simp] theorem State.setLat_seq (s : State) (x : Latches) : (s.setLat x).seq = s.seq := rfl
@[simp] theorem State.setLat_mem (s : State) (x : Latches) : (s.setLat x).mem = s.mem := rfl
@[simp] theorem State.setLat_sink (s : State) (x : Latches) : (s.setLat x).sink = s.sink := rfl
@[simp] theorem State.setLat_host (s : State) (x : Latches) : (s.setLat x).host = s.host := rfl
@[simp] theorem State.setLat_schedule (s : State) (x : Latches) : (s.setLat x).schedule = s.schedule := rfl
@[simp] theorem State.setLat_windowReady (s : State) (x : Latches) : (s.setLat x).windowReady = s.windowReady := rfl
@[simp] theorem State.setLat_marks (s : State) (x : Latches) : (s.setLat x).marks = s.marks := rfl
@[simp] theorem State.setLat_draws (s : State) (x : Latches) : (s.setLat x).draws = s.draws := rfl

/-! ### setSeq -/

@[simp] theorem State.setSeq_params (s : State) (x : Sequencer) : (s.setSeq x).params = s.params := rfl
@[simp] theorem State.setSeq_status (s : State) (x : Sequencer) : (s.setSeq x).status = s.status := rfl
@[simp] theorem State.setSeq_regs (s : State) (x : Sequencer) : (s.setSeq x).regs = s.regs := rfl
@[simp] theorem State.setSeq_lat (s : State) (x : Sequencer) : (s.setSeq x).lat = s.lat := rfl
@[simp] theorem State.setSeq_seq (s : State) (x : Sequencer) : (s.setSeq x).seq = x := rfl
@[simp] theorem State.setSeq_mem (s : State) (x : Sequencer) : (s.setSeq x).mem = s.mem := rfl
@[simp] theorem State.setSeq_sink (s : State) (x : Sequencer) : (s.setSeq x).sink = s.sink := rfl
@[simp] theorem State.setSeq_host (s : State) (x : Sequencer) : (s.setSeq x).host = s.host := rfl
@[simp] theorem State.setSeq_schedule (s : State) (x : Sequencer) : (s.setSeq x).schedule = s.schedule := rfl
@[simp] theorem State.setSeq_windowReady (s : State) (x : Sequencer) : (s.setSeq x).windowReady = s.windowReady := rfl
@[simp] theorem State.setSeq_marks (s : State) (x : Sequencer) : (s.setSeq x).marks = s.marks := rfl
@[simp] theorem State.setSeq_draws (s : State) (x : Sequencer) : (s.setSeq x).draws = s.draws := rfl

/-! ### setMem -/

@[simp] theorem State.setMem_params (s : State) (x : Memory) : (s.setMem x).params = s.params := rfl
@[simp] theorem State.setMem_status (s : State) (x : Memory) : (s.setMem x).status = s.status := rfl
@[simp] theorem State.setMem_regs (s : State) (x : Memory) : (s.setMem x).regs = s.regs := rfl
@[simp] theorem State.setMem_lat (s : State) (x : Memory) : (s.setMem x).lat = s.lat := rfl
@[simp] theorem State.setMem_seq (s : State) (x : Memory) : (s.setMem x).seq = s.seq := rfl
@[simp] theorem State.setMem_mem (s : State) (x : Memory) : (s.setMem x).mem = x := rfl
@[simp] theorem State.setMem_sink (s : State) (x : Memory) : (s.setMem x).sink = s.sink := rfl
@[simp] theorem State.setMem_host (s : State) (x : Memory) : (s.setMem x).host = s.host := rfl
@[simp] theorem State.setMem_schedule (s : State) (x : Memory) : (s.setMem x).schedule = s.schedule := rfl
@[simp] theorem State.setMem_windowReady (s : State) (x : Memory) : (s.setMem x).windowReady = s.windowReady := rfl
@[simp] theorem State.setMem_marks (s : State) (x : Memory) : (s.setMem x).marks = s.marks := rfl
@[simp] theorem State.setMem_draws (s : State) (x : Memory) : (s.setMem x).draws = s.draws := rfl

/-! ### setSink -/

@[simp] theorem State.setSink_params (s : State) (x : Sink) : (s.setSink x).params = s.params := rfl
@[simp] theorem State.setSink_status (s : State) (x : Sink) : (s.setSink x).status = s.status := rfl
@[simp] theorem State.setSink_regs (s : State) (x : Sink) : (s.setSink x).regs = s.regs := rfl
@[simp] theorem State.setSink_lat (s : State) (x : Sink) : (s.setSink x).lat = s.lat := rfl
@[simp] theorem State.setSink_seq (s : State) (x : Sink) : (s.setSink x).seq = s.seq := rfl
@[simp] theorem State.setSink_mem (s : State) (x : Sink) : (s.setSink x).mem = s.mem := rfl
@[simp] theorem State.setSink_sink (s : State) (x : Sink) : (s.setSink x).sink = x := rfl
@[simp] theorem State.setSink_host (s : State) (x : Sink) : (s.setSink x).host = s.host := rfl
@[simp] theorem State.setSink_schedule (s : State) (x : Sink) : (s.setSink x).schedule = s.schedule := rfl
@[simp] theorem State.setSink_windowReady (s : State) (x : Sink) : (s.setSink x).windowReady = s.windowReady := rfl
@[simp] theorem State.setSink_marks (s : State) (x : Sink) : (s.setSink x).marks = s.marks := rfl
@[simp] theorem State.setSink_draws (s : State) (x : Sink) : (s.setSink x).draws = s.draws := rfl

/-! ### setHost -/

@[simp] theorem State.setHost_params (s : State) (x : HostAgent) : (s.setHost x).params = s.params := rfl
@[simp] theorem State.setHost_status (s : State) (x : HostAgent) : (s.setHost x).status = s.status := rfl
@[simp] theorem State.setHost_regs (s : State) (x : HostAgent) : (s.setHost x).regs = s.regs := rfl
@[simp] theorem State.setHost_lat (s : State) (x : HostAgent) : (s.setHost x).lat = s.lat := rfl
@[simp] theorem State.setHost_seq (s : State) (x : HostAgent) : (s.setHost x).seq = s.seq := rfl
@[simp] theorem State.setHost_mem (s : State) (x : HostAgent) : (s.setHost x).mem = s.mem := rfl
@[simp] theorem State.setHost_sink (s : State) (x : HostAgent) : (s.setHost x).sink = s.sink := rfl
@[simp] theorem State.setHost_host (s : State) (x : HostAgent) : (s.setHost x).host = x := rfl
@[simp] theorem State.setHost_schedule (s : State) (x : HostAgent) : (s.setHost x).schedule = s.schedule := rfl
@[simp] theorem State.setHost_windowReady (s : State) (x : HostAgent) : (s.setHost x).windowReady = s.windowReady := rfl
@[simp] theorem State.setHost_marks (s : State) (x : HostAgent) : (s.setHost x).marks = s.marks := rfl
@[simp] theorem State.setHost_draws (s : State) (x : HostAgent) : (s.setHost x).draws = s.draws := rfl

/-! ### setSchedule -/

@[simp] theorem State.setSchedule_params (s : State) (x : List Turn) : (s.setSchedule x).params = s.params := rfl
@[simp] theorem State.setSchedule_status (s : State) (x : List Turn) : (s.setSchedule x).status = s.status := rfl
@[simp] theorem State.setSchedule_regs (s : State) (x : List Turn) : (s.setSchedule x).regs = s.regs := rfl
@[simp] theorem State.setSchedule_lat (s : State) (x : List Turn) : (s.setSchedule x).lat = s.lat := rfl
@[simp] theorem State.setSchedule_seq (s : State) (x : List Turn) : (s.setSchedule x).seq = s.seq := rfl
@[simp] theorem State.setSchedule_mem (s : State) (x : List Turn) : (s.setSchedule x).mem = s.mem := rfl
@[simp] theorem State.setSchedule_sink (s : State) (x : List Turn) : (s.setSchedule x).sink = s.sink := rfl
@[simp] theorem State.setSchedule_host (s : State) (x : List Turn) : (s.setSchedule x).host = s.host := rfl
@[simp] theorem State.setSchedule_schedule (s : State) (x : List Turn) : (s.setSchedule x).schedule = x := rfl
@[simp] theorem State.setSchedule_windowReady (s : State) (x : List Turn) : (s.setSchedule x).windowReady = s.windowReady := rfl
@[simp] theorem State.setSchedule_marks (s : State) (x : List Turn) : (s.setSchedule x).marks = s.marks := rfl
@[simp] theorem State.setSchedule_draws (s : State) (x : List Turn) : (s.setSchedule x).draws = s.draws := rfl

/-! ### setWindowReady -/

@[simp] theorem State.setWindowReady_params (s : State) (x : Bool) : (s.setWindowReady x).params = s.params := rfl
@[simp] theorem State.setWindowReady_status (s : State) (x : Bool) : (s.setWindowReady x).status = s.status := rfl
@[simp] theorem State.setWindowReady_regs (s : State) (x : Bool) : (s.setWindowReady x).regs = s.regs := rfl
@[simp] theorem State.setWindowReady_lat (s : State) (x : Bool) : (s.setWindowReady x).lat = s.lat := rfl
@[simp] theorem State.setWindowReady_seq (s : State) (x : Bool) : (s.setWindowReady x).seq = s.seq := rfl
@[simp] theorem State.setWindowReady_mem (s : State) (x : Bool) : (s.setWindowReady x).mem = s.mem := rfl
@[simp] theorem State.setWindowReady_sink (s : State) (x : Bool) : (s.setWindowReady x).sink = s.sink := rfl
@[simp] theorem State.setWindowReady_host (s : State) (x : Bool) : (s.setWindowReady x).host = s.host := rfl
@[simp] theorem State.setWindowReady_schedule (s : State) (x : Bool) : (s.setWindowReady x).schedule = s.schedule := rfl
@[simp] theorem State.setWindowReady_windowReady (s : State) (x : Bool) : (s.setWindowReady x).windowReady = x := rfl
@[simp] theorem State.setWindowReady_marks (s : State) (x : Bool) : (s.setWindowReady x).marks = s.marks := rfl
@[simp] theorem State.setWindowReady_draws (s : State) (x : Bool) : (s.setWindowReady x).draws = s.draws := rfl

/-! ### setMarks -/

@[simp] theorem State.setMarks_params (s : State) (x : Marks) : (s.setMarks x).params = s.params := rfl
@[simp] theorem State.setMarks_status (s : State) (x : Marks) : (s.setMarks x).status = s.status := rfl
@[simp] theorem State.setMarks_regs (s : State) (x : Marks) : (s.setMarks x).regs = s.regs := rfl
@[simp] theorem State.setMarks_lat (s : State) (x : Marks) : (s.setMarks x).lat = s.lat := rfl
@[simp] theorem State.setMarks_seq (s : State) (x : Marks) : (s.setMarks x).seq = s.seq := rfl
@[simp] theorem State.setMarks_mem (s : State) (x : Marks) : (s.setMarks x).mem = s.mem := rfl
@[simp] theorem State.setMarks_sink (s : State) (x : Marks) : (s.setMarks x).sink = s.sink := rfl
@[simp] theorem State.setMarks_host (s : State) (x : Marks) : (s.setMarks x).host = s.host := rfl
@[simp] theorem State.setMarks_schedule (s : State) (x : Marks) : (s.setMarks x).schedule = s.schedule := rfl
@[simp] theorem State.setMarks_windowReady (s : State) (x : Marks) : (s.setMarks x).windowReady = s.windowReady := rfl
@[simp] theorem State.setMarks_marks (s : State) (x : Marks) : (s.setMarks x).marks = x := rfl
@[simp] theorem State.setMarks_draws (s : State) (x : Marks) : (s.setMarks x).draws = s.draws := rfl

/-! ### setDraws -/

@[simp] theorem State.setDraws_params (s : State) (x : Nat) : (s.setDraws x).params = s.params := rfl
@[simp] theorem State.setDraws_status (s : State) (x : Nat) : (s.setDraws x).status = s.status := rfl
@[simp] theorem State.setDraws_regs (s : State) (x : Nat) : (s.setDraws x).regs = s.regs := rfl
@[simp] theorem State.setDraws_lat (s : State) (x : Nat) : (s.setDraws x).lat = s.lat := rfl
@[simp] theorem State.setDraws_seq (s : State) (x : Nat) : (s.setDraws x).seq = s.seq := rfl
@[simp] theorem State.setDraws_mem (s : State) (x : Nat) : (s.setDraws x).mem = s.mem := rfl
@[simp] theorem State.setDraws_sink (s : State) (x : Nat) : (s.setDraws x).sink = s.sink := rfl
@[simp] theorem State.setDraws_host (s : State) (x : Nat) : (s.setDraws x).host = s.host := rfl
@[simp] theorem State.setDraws_schedule (s : State) (x : Nat) : (s.setDraws x).schedule = s.schedule := rfl
@[simp] theorem State.setDraws_windowReady (s : State) (x : Nat) : (s.setDraws x).windowReady = s.windowReady := rfl
@[simp] theorem State.setDraws_marks (s : State) (x : Nat) : (s.setDraws x).marks = s.marks := rfl
@[simp] theorem State.setDraws_draws (s : State) (x : Nat) : (s.setDraws x).draws = x := rfl

/-! ### STATUS events -/

@[simp] theorem Status.accepted_busy (st : Status) : st.accepted.busy = true := rfl
@[simp] theorem Status.accepted_configured (st : Status) : st.accepted.configured = st.configured := rfl
@[simp] theorem Status.accepted_durValid (st : Status) : st.accepted.durValid = st.durValid := rfl
@[simp] theorem Status.accepted_ovr (st : Status) : st.accepted.ovr = st.ovr := rfl
@[simp] theorem Status.accepted_err (st : Status) : st.accepted.err = ErrCode.ok := rfl

@[simp] theorem Status.completed_busy (st : Status) (c : ErrCode) : (st.completed c).busy = false := rfl
@[simp] theorem Status.completed_configured (st : Status) (c : ErrCode) : (st.completed c).configured = st.configured := rfl
@[simp] theorem Status.completed_durValid (st : Status) (c : ErrCode) : (st.completed c).durValid = st.durValid := rfl
@[simp] theorem Status.completed_ovr (st : Status) (c : ErrCode) : (st.completed c).ovr = st.ovr := rfl
@[simp] theorem Status.completed_err (st : Status) (c : ErrCode) : (st.completed c).err = c := rfl

@[simp] theorem Status.overrun_busy (st : Status) : st.overrun.busy = st.busy := rfl
@[simp] theorem Status.overrun_configured (st : Status) : st.overrun.configured = st.configured := rfl
@[simp] theorem Status.overrun_durValid (st : Status) : st.overrun.durValid = st.durValid := rfl
@[simp] theorem Status.overrun_ovr (st : Status) : st.overrun.ovr = true := rfl
@[simp] theorem Status.overrun_err (st : Status) : st.overrun.err = st.err := rfl

@[simp] theorem Status.installed_busy (st : Status) : st.installed.busy = st.busy := rfl
@[simp] theorem Status.installed_configured (st : Status) : st.installed.configured = true := rfl
@[simp] theorem Status.installed_durValid (st : Status) : st.installed.durValid = false := rfl
@[simp] theorem Status.installed_ovr (st : Status) : st.installed.ovr = st.ovr := rfl
@[simp] theorem Status.installed_err (st : Status) : st.installed.err = st.err := rfl

@[simp] theorem Status.destroyed_busy (st : Status) : st.destroyed.busy = st.busy := rfl
@[simp] theorem Status.destroyed_configured (st : Status) : st.destroyed.configured = false := rfl
@[simp] theorem Status.destroyed_durValid (st : Status) : st.destroyed.durValid = st.durValid := rfl
@[simp] theorem Status.destroyed_ovr (st : Status) : st.destroyed.ovr = st.ovr := rfl
@[simp] theorem Status.destroyed_err (st : Status) : st.destroyed.err = st.err := rfl

@[simp] theorem Status.timed_busy (st : Status) : st.timed.busy = st.busy := rfl
@[simp] theorem Status.timed_configured (st : Status) : st.timed.configured = st.configured := rfl
@[simp] theorem Status.timed_durValid (st : Status) : st.timed.durValid = true := rfl
@[simp] theorem Status.timed_ovr (st : Status) : st.timed.ovr = st.ovr := rfl
@[simp] theorem Status.timed_err (st : Status) : st.timed.err = st.err := rfl

@[simp] theorem Status.hostWrite_busy (st : Status) (d : Word) : (st.hostWrite d).busy = st.busy := by
  unfold Status.hostWrite; split <;> rfl
@[simp] theorem Status.hostWrite_configured (st : Status) (d : Word) : (st.hostWrite d).configured = st.configured := by
  unfold Status.hostWrite; split <;> rfl
@[simp] theorem Status.hostWrite_durValid (st : Status) (d : Word) : (st.hostWrite d).durValid = st.durValid := by
  unfold Status.hostWrite; split <;> rfl
@[simp] theorem Status.hostWrite_err (st : Status) (d : Word) : (st.hostWrite d).err = st.err := by
  unfold Status.hostWrite; split <;> rfl
@[simp] theorem Status.hostWrite_ovr (st : Status) (d : Word) : (st.hostWrite d).ovr = (st.ovr && !d.getLsbD 3) := by
  unfold Status.hostWrite; split <;> simp_all

end Sys2Proof.Machine
end

