-- ==== Sys2Proof/Laws/Memory.lean ====
section
/-! SUPPORT. The memory's laws: a read after a write, the canonical form kept by every operation, and which bytes a word
store or a havoc changes. -/

namespace Sys2Proof.Machine

/-! ### One byte -/

/-- No cell is listed below the first one. -/
theorem Memory.find?_none_of_lt (m : Memory) (x : Nat) (h : ∀ c ∈ m, x < c.1) : Memory.find? m x = none := by
  induction m with
  | nil => rfl
  | cons c m ih =>
    have := h c (by simp)
    simp only [Memory.find?]
    rw [if_neg (by omega)]
    exact ih (fun d hd => h d (by simp [hd]))

theorem Memory.find?_insert (m : Memory) (hm : m.Pairwise (fun c d => c.1 < d.1)) (a : Nat) (b : Byte) (x : Nat) :
    Memory.find? (Memory.insert m a b) x = if x = a then some b else Memory.find? m x := by
  induction m with
  | nil =>
    by_cases h : x = a
    · simp [Memory.insert, Memory.find?, h]
    · simp [Memory.insert, Memory.find?, h, Ne.symm h]
  | cons c m ih =>
    have hc := (List.pairwise_cons.mp hm)
    unfold Memory.insert
    split
    · by_cases h : x = a
      · simp [Memory.find?, h]
      · simp [Memory.find?, h, Ne.symm h]
    · split
      · rename_i h1 h2
        subst h2
        by_cases h : x = c.1
        · simp [Memory.find?, h]
        · simp [Memory.find?, h, Ne.symm h]
      · rename_i h1 h2
        simp only [Memory.find?]
        rw [ih hc.2]
        by_cases h : x = a
        · subst h
          simp [Ne.symm h2]
        · simp [h]

theorem Memory.insert_mem {m : Memory} {a : Nat} {b : Byte} {c : Host.Cell} (h : c ∈ Memory.insert m a b) :
    c = (a, b) ∨ c ∈ m := by
  induction m with
  | nil => simpa [Memory.insert] using h
  | cons d m ih =>
    unfold Memory.insert at h
    split at h
    · simpa using h
    · split at h
      · rcases List.mem_cons.mp h with h | h
        · exact .inl h
        · exact .inr (List.mem_cons_of_mem _ h)
      · rcases List.mem_cons.mp h with h | h
        · exact .inr (by simp [h])
        · rcases ih h with h | h
          · exact .inl h
          · exact .inr (List.mem_cons_of_mem _ h)

theorem Memory.insert_sorted (m : Memory) (hm : m.Pairwise (fun c d => c.1 < d.1)) (a : Nat) (b : Byte) :
    (Memory.insert m a b).Pairwise (fun c d => c.1 < d.1) := by
  induction m with
  | nil => simp [Memory.insert]
  | cons c m ih =>
    have hc := List.pairwise_cons.mp hm
    unfold Memory.insert
    split
    · rename_i h
      refine List.pairwise_cons.mpr ⟨fun d hd => ?_, hm⟩
      rcases List.mem_cons.mp hd with rfl | hd
      · exact h
      · exact Nat.lt_trans h (hc.1 d hd)
    · split
      · rename_i h1 h2
        subst h2
        exact List.pairwise_cons.mpr ⟨hc.1, hc.2⟩
      · rename_i h1 h2
        refine List.pairwise_cons.mpr ⟨fun d hd => ?_, ih hc.2⟩
        rcases Memory.insert_mem hd with rfl | hd
        · show c.1 < a
          omega
        · exact hc.1 d hd

theorem Memory.setByte_wf (m : Memory) (hm : m.wf) (a : Word) (b : Byte) : (m.setByte a b).wf := by
  refine ⟨Memory.insert_sorted m hm.1 _ _, fun c hc => ?_⟩
  rcases Memory.insert_mem hc with rfl | hc
  · exact a.isLt
  · exact hm.2 c hc

theorem Memory.byte_setByte (m : Memory) (hm : m.wf) (a : Word) (b : Byte) (x : Word) :
    (m.setByte a b).byte x = if x = a then b else m.byte x := by
  unfold Memory.byte Memory.setByte
  rw [Memory.find?_insert m hm.1]
  by_cases h : x = a
  · simp [h]
  · have : x.toNat ≠ a.toNat := fun e => h (BitVec.eq_of_toNat_eq e)
    simp [h, this]

/-- Two memories in canonical form that list the same byte at every address are the same data. -/
theorem Memory.ext_of_wf (m n : Memory) (hm : m.Pairwise (fun c d => c.1 < d.1)) (hn : n.Pairwise (fun c d => c.1 < d.1))
    (h : ∀ x, Memory.find? m x = Memory.find? n x) : m = n := by
  induction m generalizing n with
  | nil =>
    cases n with
    | nil => rfl
    | cons d n => have := h d.1; simp [Memory.find?] at this
  | cons c m ih =>
    cases n with
    | nil => have := h c.1; simp [Memory.find?] at this
    | cons d n =>
      have hc := List.pairwise_cons.mp hm
      have hd := List.pairwise_cons.mp hn
      have key : c.1 = d.1 := by
        rcases Nat.lt_trichotomy c.1 d.1 with hlt | heq | hlt
        · have h1 := h c.1
          rw [Memory.find?_none_of_lt (d :: n) c.1] at h1
          · simp [Memory.find?] at h1
          · intro e he
            rcases List.mem_cons.mp he with rfl | he
            · exact hlt
            · exact Nat.lt_trans hlt (hd.1 e he)
        · exact heq
        · have h1 := h d.1
          rw [Memory.find?_none_of_lt (c :: m) d.1] at h1
          · simp [Memory.find?] at h1
          · intro e he
            rcases List.mem_cons.mp he with rfl | he
            · exact hlt
            · exact Nat.lt_trans hlt (hc.1 e he)
      have val : c.2 = d.2 := by
        have := h c.1
        simpa [Memory.find?, key] using this
      have cd : c = d := Prod.ext key val
      subst cd
      rw [ih n hc.2 hd.2]
      intro x
      by_cases hx : c.1 = x
      · subst hx
        rw [Memory.find?_none_of_lt m c.1 hc.1, Memory.find?_none_of_lt n c.1 hd.1]
      · simpa [Memory.find?, hx] using h x

/-! ### A word -/

theorem Memory.store_wf (m : Memory) (hm : m.wf) (n : Nat) : ∀ (a : Word) (v : Nat), (m.store a n v).wf := by
  induction n with
  | zero => intro a v; exact hm
  | succ n ih => intro a v; exact Memory.setByte_wf _ (ih (a + 1) (v / 256)) _ _

theorem Memory.havoc_wf (m : Memory) (hm : m.wf) (n : Nat) : ∀ (a : Word) (d : Nat), (m.havoc a n d).wf := by
  induction n with
  | zero => intro a d; exact hm
  | succ n ih => intro a d; exact Memory.setByte_wf _ (ih (a + 1) (d + 1)) _ _

/-- The address one past `a` is one less far along: how a run of bytes unrolls. -/
theorem sub_succ_toNat (a x : Word) (h : x ≠ a) : (x - a).toNat = (x - (a + 1)).toNat + 1 := by
  have h1 : (x - a).toNat ≠ 0 := by
    intro e
    apply h
    have : x - a = 0#32 := BitVec.eq_of_toNat_eq e
    bv_omega
  bv_omega

/-- The bytes of a store: the `k`-th byte of `v` at the `k`-th address, and every other byte as before. -/
theorem Memory.byte_store (m : Memory) (hm : m.wf) (n : Nat) (hn : n ≤ 2 ^ 32) : ∀ (a : Word) (v : Nat) (x : Word),
    (m.store a n v).byte x =
      if (x - a).toNat < n then BitVec.ofNat 8 (v / 256 ^ (x - a).toNat) else m.byte x := by
  induction n with
  | zero => intro a v x; simp [Memory.store]
  | succ n ih =>
    intro a v x
    have ih' := ih (by omega) (a + 1) (v / 256) x
    simp only [Memory.store]
    rw [Memory.byte_setByte _ (Memory.store_wf m hm n _ _), ih']
    by_cases h : x = a
    · subst h; simp
    · rw [if_neg h, sub_succ_toNat a x h]
      simp only [Nat.add_lt_add_iff_right]
      rw [Nat.pow_succ', Nat.div_div_eq_div_mul]

/-- The bytes a havoc leaves outside its run are as before. -/
theorem Memory.byte_havoc (m : Memory) (hm : m.wf) (n : Nat) (hn : n ≤ 2 ^ 32) : ∀ (a : Word) (d : Nat) (x : Word),
    (m.havoc a n d).byte x =
      if (x - a).toNat < n then Config.drawnByte (d + (x - a).toNat) else m.byte x := by
  induction n with
  | zero => intro a v x; simp [Memory.havoc]
  | succ n ih =>
    intro a d x
    have ih' := ih (by omega) (a + 1) (d + 1) x
    simp only [Memory.havoc]
    rw [Memory.byte_setByte _ (Memory.havoc_wf m hm n _ _), ih']
    by_cases h : x = a
    · subst h; simp
    · rw [if_neg h, sub_succ_toNat a x h]
      simp only [Nat.add_lt_add_iff_right]
      congr 2
      omega

/-- A load depends on the bytes of its run alone. -/
theorem Memory.load_congr (m m' : Memory) (n : Nat) : ∀ (a : Word),
    (∀ x : Word, (x - a).toNat < n → m.byte x = m'.byte x) → n ≤ 2 ^ 32 → m.load a n = m'.load a n := by
  induction n with
  | zero => intros; rfl
  | succ n ih =>
    intro a h hn
    simp only [Memory.load]
    rw [h a (by simp), ih (a + 1) (fun x hx => h x ?_) (by omega)]
    by_cases hxa : x = a
    · subst hxa; simp
    · rw [sub_succ_toNat a x hxa]; omega

theorem Memory.load_lt (m : Memory) (n : Nat) : ∀ a : Word, m.load a n < 256 ^ n := by
  induction n with
  | zero => intro a; simp [Memory.load]
  | succ n ih =>
    intro a
    have h1 := (m.byte a).isLt
    have h2 := ih (a + 1)
    simp only [Memory.load, Nat.pow_succ']
    have : (m.byte a).toNat + 256 * m.load (a + 1) n < 256 * (m.load (a + 1) n + 1) := by omega
    calc _ < 256 * (m.load (a + 1) n + 1) := this
      _ ≤ 256 * 256 ^ n := Nat.mul_le_mul_left _ h2

/-- What a store wrote is what a load of the same run reads. -/
theorem Memory.load_store (m : Memory) (hm : m.wf) (n : Nat) (hn : n < 2 ^ 32) : ∀ (a : Word) (v : Nat),
    (m.store a n v).load a n = v % 256 ^ n := by
  induction n with
  | zero => intro a v; simp [Memory.load, Nat.mod_one]
  | succ n ih =>
    intro a v
    simp only [Memory.load]
    have h0 : (m.store a (n + 1) v).byte a = BitVec.ofNat 8 v := by
      rw [Memory.byte_store m hm _ (by omega)]; simp
    have h1 : (m.store a (n + 1) v).load (a + 1) n = (m.store (a + 1) n (v / 256)).load (a + 1) n := by
      apply Memory.load_congr _ _ _ _ _ (by omega)
      intro x hx
      have hxa : x ≠ a := by
        rintro rfl
        have : (x - (x + 1)).toNat = 2 ^ 32 - 1 := by bv_omega
        omega
      show (Memory.setByte _ _ _).byte x = _
      rw [Memory.byte_setByte _ (Memory.store_wf m hm n _ _), if_neg hxa]
    rw [h0, h1, ih (by omega), BitVec.toNat_ofNat, show (256 : Nat) ^ (n + 1) = 256 * 256 ^ n from Nat.pow_succ', Nat.mod_mul]

end Sys2Proof.Machine
end

