-- ==== Sys2Proof/Laws/Ops.lean ====
section
/-! SUPPORT. One lemma per shared operation: what a memory read, a memory write, a draw, a sink offer, a completion and a
reset can do, and what each leaves. -/

namespace Sys2Proof

theorem WordBytes.count_pos (w : WordBytes) : 0 < w.count := by cases w <;> decide
theorem WordBytes.count_le (w : WordBytes) : w.count ≤ 4 := by cases w <;> decide

end Sys2Proof

namespace Sys2Proof.Machine

@[simp] theorem truncTo_toNat (n : Nat) (v : Word) : (truncTo n v).toNat = v.toNat % 2 ^ n := by
  unfold truncTo
  rw [BitVec.toNat_ofNat]
  exact Nat.mod_eq_of_lt (Nat.lt_of_le_of_lt (Nat.mod_le _ _) v.isLt)

theorem truncTo_lt (n : Nat) (v : Word) : (truncTo n v).toNat < 2 ^ n := by
  rw [truncTo_toNat]
  exact Nat.mod_lt _ (Nat.two_pow_pos n)

/-! ### Reads -/

/-- Everything a read can do: the word of memory and no change, a draw, or a draw with an event. -/
theorem State.memRead_cases (s : State) (a : Word) :
    (s.inWindow a = true ∧ s.byteExact a = true ∧ s.memRead a = (BitVec.ofNat 32 (s.mem.load a s.wordBytes), s)) ∨
    (s.inWindow a = true ∧ s.byteExact a = false ∧
      s.memRead a = (truncTo s.params.wordBits (Config.drawnWord s.draws), { s with draws := s.draws + 1 })) ∨
    (s.inWindow a = false ∧
      s.memRead a = (truncTo s.params.wordBits (Config.drawnWord s.draws),
        { s with draws := s.draws + 1, marks := { s.marks with oowReads := s.marks.oowReads ++ [a] } })) := by
  unfold State.memRead
  by_cases h1 : s.inWindow a = true
  · by_cases h2 : s.byteExact a = true
    · exact .inl ⟨h1, h2, by simp [h1, h2]⟩
    · exact .inr (.inl ⟨h1, by simpa using h2, by simp [h1, h2, State.drawWord, State.setDraws]⟩)
  · refine .inr (.inr ⟨by simpa using h1, ?_⟩)
    simp [h1, State.drawWord, State.setDraws, State.setMarks]

/-- A read changes nothing but the marks and the draws taken (20_memory.md R68). -/
theorem State.memRead_frame (s : State) (a : Word) :
    (s.memRead a).2 = { s with marks := (s.memRead a).2.marks, draws := (s.memRead a).2.draws } := by
  rcases s.memRead_cases a with ⟨_, _, h⟩ | ⟨_, _, h⟩ | ⟨_, h⟩ <;> rw [h]

/-- A read never touches the mark of an out-of-contract configuration. -/
theorem State.memRead_cfgOutOfContract (s : State) (a : Word) :
    (s.memRead a).2.marks.cfgOutOfContract = s.marks.cfgOutOfContract := by
  rcases s.memRead_cases a with ⟨_, _, h⟩ | ⟨_, _, h⟩ | ⟨_, h⟩ <;> rw [h]

/-- A read gives a word of `WORD_BITS` bits. -/
theorem State.memRead_lt (s : State) (a : Word) : (s.memRead a).1.toNat < 2 ^ s.params.wordBits := by
  rcases s.memRead_cases a with ⟨_, _, h⟩ | ⟨_, _, h⟩ | ⟨_, h⟩ <;> rw [h]
  · show (BitVec.ofNat 32 _).toNat < _
    rw [BitVec.toNat_ofNat]
    refine Nat.lt_of_le_of_lt (Nat.mod_le _ _) ?_
    have := Memory.load_lt s.mem s.wordBytes a
    rwa [show (256 : Nat) = 2 ^ 8 from rfl, ← Nat.pow_mul] at this
  · exact truncTo_lt _ _
  · exact truncTo_lt _ _

/-! ### Writes -/

/-- A write changes nothing but the memory and the draws taken (20_memory.md R63, R66). -/
theorem State.memWrite_frame (s : State) (a v : Word) :
    s.memWrite a v = { s with mem := (s.memWrite a v).mem, draws := (s.memWrite a v).draws } := by
  unfold State.memWrite
  split <;> rfl

theorem State.memWrite_wf (s : State) (h : s.mem.wf) (a v : Word) : (s.memWrite a v).mem.wf := by
  unfold State.memWrite
  split
  · exact Memory.store_wf _ h _ _ _
  · exact Memory.havoc_wf _ h _ _ _

/-- A byte-exact write puts the `k`-th byte of the word at the `k`-th address. -/
theorem State.memWrite_byte (s : State) (h : s.mem.wf) (a v x : Word) (he : s.byteExact a = true)
    (hx : (x - a).toNat < s.wordBytes) :
    (s.memWrite a v).byteAt x = BitVec.ofNat 8 (v.toNat / 256 ^ (x - a).toNat) := by
  have := s.params.wordBytes.count_le
  unfold State.memWrite State.byteAt
  simp only [he, if_true, State.setMem_mem]
  rw [Memory.byte_store _ h _ (by unfold State.wordBytes; omega), if_pos hx]

/-- A write changes no byte outside those it touches. -/
theorem State.memWrite_memFrame (s : State) (h : s.mem.wf) (a v : Word) : memFrame s (s.memWrite a v) a := by
  intro x hx
  have := s.params.wordBytes.count_le
  unfold State.memWrite State.byteAt
  by_cases he : s.byteExact a = true
  · simp only [State.touched, he, if_true] at hx ⊢
    rw [State.setMem_mem, Memory.byte_store _ h _ (by unfold State.wordBytes; omega), if_neg hx]
  · simp only [State.touched, he] at hx ⊢
    simp only [Bool.false_eq_true, if_false, State.setDraws_mem, State.setMem_mem] at hx ⊢
    rw [Memory.byte_havoc _ h _ (by unfold State.wordBytes; omega), if_neg hx]

/-! ### Sink, tick, completion, reset -/

/-- Everything an offer can do (43_bulk.md R180). -/
theorem State.sinkPut_cases (s : State) (b : Byte) :
    (s.sink.answers = [] ∧ s.sinkPut b = none) ∨
    (∃ rest, s.sink.answers = .accept :: rest ∧
      s.sinkPut b = some (.accept, { s with sink := { stream := s.sink.stream ++ [b], answers := rest } })) ∨
    (∃ rest, s.sink.answers = .fail :: rest ∧
      s.sinkPut b = some (.fail, { s with sink := { s.sink with answers := rest } })) := by
  unfold State.sinkPut
  rcases h : s.sink.answers with _ | ⟨x, rest⟩
  · exact .inl ⟨rfl, rfl⟩
  · cases x
    · exact .inr (.inl ⟨rest, rfl, rfl⟩)
    · exact .inr (.inr ⟨rest, rfl, rfl⟩)

theorem State.tickSample_eq (s : State) :
    s.tickSample = (truncTo s.params.tickBits (Config.tick s.draws), { s with draws := s.draws + 1 }) := rfl

@[simp] theorem State.complete_eq (s : State) (code : ErrCode) :
    s.complete code =
      { s with status := { s.status with busy := false, err := code }, seq := { s.seq with phase := .idle } } := rfl

theorem State.applyReset_eq (s : State) :
    s.applyReset =
      { s with status := State.reset.status, regs := State.reset.regs, lat := State.reset.lat, seq := State.reset.seq } := rfl

theorem State.applyReset_reset : State.reset.applyReset = State.reset := rfl

end Sys2Proof.Machine
end

