-- ==== Sys2Proof/Laws/Exec.lean ====
section
/-! SUPPORT. Everything a step of a command can do, said once: one case per outcome of a rule, with the next state written
out. Proofs about all commands take `exec_cases` apart and never unfold a meaning. -/

namespace Sys2Proof.Machine

/-- The next states of a step of command `i` from `s`, with what the step was. -/
inductive ExecCase (s : State) : Instr → State → Prop
  | rejected (i : Instr) (hi : i ≠ .config) (hc : s.status.configured = false)
      (hf : i = .fillz ∨ i = .exportText → s.firstStep = true) :
      ExecCase s i (s.complete .notConfigured)
  | configFails (h : s.lat.a = 0) :
      ExecCase s .config
        { s with status := { s.status with busy := false, configured := false, err := .invalidConfiguration },
                 seq := { s.seq with phase := .idle } }
  | configInstalls (h : s.lat.a ≠ 0) :
      ExecCase s .config { s with
        regs := { s.regs with capacity := s.lat.a, base := s.lat.b, increment := s.lat.c, cursor := 0, duration := 0 }
        status := { s.status with busy := false, configured := true, durValid := false, err := .ok }
        seq := { s.seq with phase := .idle }
        marks := { s.marks with
          cfgOutOfContract := s.marks.cfgOutOfContract || !configInContract s.wordBytes s.lat.a s.lat.b s.lat.c } }
  | writes (hc : s.status.configured = true) :
      ExecCase s .write { s with
        mem := (s.memWrite s.writeAddr s.writeValue).mem
        draws := (s.memWrite s.writeAddr s.writeValue).draws
        regs := { s.regs with cursor := s.nextCursor }
        status := { s.status with busy := false, err := .ok }
        seq := { s.seq with phase := .idle } }
  | reads (i : Instr) (a : Word) (hc : s.status.configured = true)
      (h : (i = .readi ∧ a = s.indexAddr) ∨ (i = .reado ∧ a = s.offsetAddr) ∨
        (i = .readc ∧ a = s.indexAddr ∧ s.indexInRange = true)) :
      ExecCase s i { s with
        regs := { s.regs with result := (s.memRead a).1 }
        status := { s.status with busy := false, err := .ok }
        seq := { s.seq with phase := .idle }
        marks := (s.memRead a).2.marks
        draws := (s.memRead a).2.draws }
  | outOfRange (hc : s.status.configured = true) (h : s.indexInRange = false) :
      ExecCase s .readc (s.complete .indexOutOfRange)
  | fills (hr : s.rejectedAtStart = false) (h : (s.seq.i + 1).toNat ≠ s.regs.capacity.toNat) :
      ExecCase s .fillz { s with
        mem := (s.memWrite s.bulkAddr 0).mem
        draws := (s.memWrite s.bulkAddr 0).draws
        seq := { s.seq with i := s.seq.i + 1 } }
  | fillsLast (hr : s.rejectedAtStart = false) (h : (s.seq.i + 1).toNat = s.regs.capacity.toNat) :
      ExecCase s .fillz { s with
        mem := (s.memWrite s.bulkAddr 0).mem
        draws := (s.memWrite s.bulkAddr 0).draws
        regs := { s.regs with cursor := 0 }
        status := { s.status with busy := false, err := .ok }
        seq := { s.seq with i := s.seq.i + 1, phase := .idle } }
  | exportReads (hr : s.rejectedAtStart = false) (hb : s.seq.bytes = []) (h : s.seq.i.toNat < s.regs.capacity.toNat) :
      ExecCase s .exportText { s with
        seq := { s.seq with word := (s.memRead s.bulkAddr).1, bytes := tokenText s.params (s.memRead s.bulkAddr).1,
                            i := s.seq.i + 1 }
        marks := (s.memRead s.bulkAddr).2.marks
        draws := (s.memRead s.bulkAddr).2.draws }
  | exportWaits (b : Byte) (rest : List Byte) (hb : s.seq.bytes = b :: rest) (ha : s.sink.answers = []) :
      ExecCase s .exportText s
  | exportFails (b : Byte) (rest : List Byte) (answers : List SinkAnswer) (hb : s.seq.bytes = b :: rest)
      (ha : s.sink.answers = .fail :: answers) :
      ExecCase s .exportText { s with
        sink := { s.sink with answers := answers }
        status := { s.status with busy := false, err := .exportFailed }
        seq := { s.seq with phase := .idle } }
  | exportSends (b : Byte) (rest : List Byte) (answers : List SinkAnswer) (hb : s.seq.bytes = b :: rest)
      (ha : s.sink.answers = .accept :: answers) (h : ¬ (rest = [] ∧ s.seq.i.toNat = s.regs.capacity.toNat)) :
      ExecCase s .exportText { s with
        sink := { stream := s.sink.stream ++ [b], answers := answers }
        seq := { s.seq with bytes := rest } }
  | exportEnds (b : Byte) (answers : List SinkAnswer) (hb : s.seq.bytes = [b])
      (ha : s.sink.answers = .accept :: answers) (h : s.seq.i.toNat = s.regs.capacity.toNat) :
      ExecCase s .exportText { s with
        sink := { stream := s.sink.stream ++ [b], answers := answers }
        regs := { s.regs with
          cursor := 0
          duration := truncTo s.params.tickBits (truncTo s.params.tickBits (Config.tick s.draws) - s.seq.t0) }
        status := { s.status with busy := false, durValid := true, err := .ok }
        seq := { s.seq with bytes := [], phase := .idle }
        draws := s.draws + 1 }

/-- A command reports no refusal, and EXPORT alone can fault, in a state with nothing to do. -/
theorem exec_total (i : Instr) (s : State) :
    (∃ t, exec i s = .next t) ∨
    (i = .exportText ∧ s.rejectedAtStart = false ∧ s.seq.bytes = [] ∧ s.regs.capacity.toNat ≤ s.seq.i.toNat ∧
      exec i s = .fault .noEnabledStep) := by
  cases i
  case exportText =>
    simp only [exec, execExport]
    by_cases hr : s.rejectedAtStart = true
    · exact .inl ⟨_, if_pos hr⟩
    · rw [if_neg hr]
      rcases hb : s.seq.bytes with _ | ⟨b, rest⟩
      · by_cases h : s.seq.i.toNat < s.regs.capacity.toNat
        · exact .inl ⟨_, if_pos h⟩
        · exact .inr ⟨trivial, by simpa using hr, rfl, by omega, if_neg h⟩
      · exact .inl ⟨_, rfl⟩
  all_goals exact .inl ⟨_, rfl⟩

/-- A read into RESULT, as one record. -/
theorem State.readInto_eq (s : State) (a : Word) :
    s.readInto a = { s with
      regs := { s.regs with result := (s.memRead a).1 }
      status := { s.status with busy := false, err := .ok }
      seq := { s.seq with phase := .idle }
      marks := (s.memRead a).2.marks
      draws := (s.memRead a).2.draws } := by
  have h := s.memRead_frame a
  unfold State.readInto
  generalize s.memRead a = p at h ⊢
  obtain ⟨v, t⟩ := p
  simp only at h ⊢
  rw [h]
  rfl

/-- The read step of EXPORT, as one record. -/
theorem State.exportRead_eq (s : State) :
    s.exportRead = { s with
      seq := { s.seq with word := (s.memRead s.bulkAddr).1, bytes := tokenText s.params (s.memRead s.bulkAddr).1,
                          i := s.seq.i + 1 }
      marks := (s.memRead s.bulkAddr).2.marks
      draws := (s.memRead s.bulkAddr).2.draws } := by
  have h := s.memRead_frame s.bulkAddr
  unfold State.exportRead
  generalize s.memRead s.bulkAddr = p at h ⊢
  obtain ⟨v, t⟩ := p
  simp only at h ⊢
  rw [h]
  rfl

theorem exec_cases {i : Instr} {s t : State} (h : exec i s = .next t) : ExecCase s i t := by
  cases i
  case config =>
    simp only [exec, execConfig, Host.Outcome.next.injEq] at h
    subst h
    by_cases ha : s.lat.a = 0
    · rw [if_pos ha]; exact .configFails ha
    · rw [if_neg ha]; exact .configInstalls ha
  case write =>
    simp only [exec, execWrite, State.ifConfigured, Host.Outcome.next.injEq] at h
    subst h
    by_cases hc : s.status.configured = true
    · rw [if_pos hc, s.memWrite_frame s.writeAddr s.writeValue]
      exact .writes hc
    · rw [if_neg hc]; exact .rejected _ (by decide) (by simpa using hc) (by simp)
  case readi =>
    simp only [exec, execReadi, State.ifConfigured, Host.Outcome.next.injEq] at h
    subst h
    by_cases hc : s.status.configured = true
    · rw [if_pos hc, s.readInto_eq]; exact .reads _ _ hc (.inl ⟨rfl, rfl⟩)
    · rw [if_neg hc]; exact .rejected _ (by decide) (by simpa using hc) (by simp)
  case reado =>
    simp only [exec, execReado, State.ifConfigured, Host.Outcome.next.injEq] at h
    subst h
    by_cases hc : s.status.configured = true
    · rw [if_pos hc, s.readInto_eq]; exact .reads _ _ hc (.inr (.inl ⟨rfl, rfl⟩))
    · rw [if_neg hc]; exact .rejected _ (by decide) (by simpa using hc) (by simp)
  case readc =>
    simp only [exec, execReadc, State.ifConfigured, Host.Outcome.next.injEq] at h
    subst h
    by_cases hc : s.status.configured = true
    · rw [if_pos hc]
      by_cases hr : s.indexInRange = true
      · rw [if_pos hr, s.readInto_eq]; exact .reads _ _ hc (.inr (.inr ⟨rfl, rfl, hr⟩))
      · rw [if_neg hr]; exact .outOfRange hc (by simpa using hr)
    · rw [if_neg hc]; exact .rejected _ (by decide) (by simpa using hc) (by simp)
  case fillz =>
    simp only [exec, execFillz, Host.Outcome.next.injEq] at h
    subst h
    by_cases hr : s.rejectedAtStart = true
    · rw [if_pos hr]
      simp [State.rejectedAtStart] at hr
      exact .rejected _ (by decide) hr.2 (fun _ => hr.1)
    · rw [if_neg hr, s.memWrite_frame s.bulkAddr 0]
      by_cases hl : (s.seq.i + 1).toNat = s.regs.capacity.toNat
      · exact (if_pos hl).symm ▸ .fillsLast (by simpa using hr) hl
      · exact (if_neg hl).symm ▸ .fills (by simpa using hr) hl
  case exportText =>
    simp only [exec, execExport] at h
    by_cases hr : s.rejectedAtStart = true
    · rw [if_pos hr] at h
      cases h
      simp [State.rejectedAtStart] at hr
      exact .rejected _ (by decide) hr.2 (fun _ => hr.1)
    · rw [if_neg hr] at h
      rcases hb : s.seq.bytes with _ | ⟨b, rest⟩
      · rw [hb] at h
        simp only at h
        by_cases hl : s.seq.i.toNat < s.regs.capacity.toNat
        · rw [if_pos hl] at h
          cases h
          rw [s.exportRead_eq]
          exact .exportReads (by simpa using hr) hb hl
        · rw [if_neg hl] at h; cases h
      · rw [hb] at h
        simp only [Host.Outcome.next.injEq] at h
        subst h
        unfold State.exportByte
        rcases s.sinkPut_cases b with ⟨ha, e⟩ | ⟨answers, ha, e⟩ | ⟨answers, ha, e⟩ <;> rw [e]
        · exact .exportWaits b rest hb ha
        · by_cases hl : rest = [] ∧ s.seq.i.toNat = s.regs.capacity.toNat
          · obtain ⟨hl1, hl2⟩ := hl
            subst hl1
            simp only [List.isEmpty_nil, Bool.true_and, State.setSeq_seq, State.setSeq_regs, beq_iff_eq, hl2, if_true]
            exact .exportEnds b answers hb ha hl2
          · have hl' : (rest.isEmpty && s.seq.i.toNat == s.regs.capacity.toNat) = false := by
              cases rest <;> simp_all
            simp only [State.setSeq_seq, State.setSeq_regs, hl', Bool.false_eq_true, if_false]
            exact .exportSends b rest answers hb ha hl
        · exact .exportFails b rest answers hb ha

end Sys2Proof.Machine
end

