-- ==== Sys2Proof/Laws/HostPort.lean ====
section
/-! SUPPORT. What the host port's operations can do: one lemma each. -/

namespace Sys2Proof.Machine

/-- Everything acceptance does with the tick: one sample for EXPORT, nothing for any other word (60_exceptions.md R214). -/
theorem State.tickAtAccept_cases (s : State) (w : Word) :
    (decode w = .command .exportText ∧
      s.tickAtAccept w = (truncTo s.params.tickBits (Config.tick s.draws), s.draws + 1)) ∨
    (decode w ≠ .command .exportText ∧ s.tickAtAccept w = (s.seq.t0, s.draws)) := by
  by_cases h : decode w = .command .exportText
  · exact .inl ⟨h, if_pos h⟩
  · exact .inr ⟨h, if_neg h⟩

/-- The start of the measurement stays in the tick's width. -/
theorem State.tickAtAccept_lt (s : State) (w : Word) (h : s.seq.t0.toNat < 2 ^ s.params.tickBits) :
    (s.tickAtAccept w).1.toNat < 2 ^ s.params.tickBits := by
  rcases s.tickAtAccept_cases w with ⟨_, e⟩ | ⟨_, e⟩ <;> rw [e]
  · exact truncTo_lt _ _
  · exact h

/-- Acceptance, as one record (40_host_port.md R114). -/
theorem State.accept_eq (s : State) (w : Word) :
    s.accept w =
      { s with
        draws := (s.tickAtAccept w).2
        lat := { op := w, a := s.regs.opa, b := s.regs.opb, c := s.regs.opc }
        status := { s.status with busy := true, err := .ok }
        seq := { phase := .run, i := 0, word := 0, bytes := [], t0 := (s.tickAtAccept w).1 } } := rfl

/-- Everything a host write can do: nothing to the registers, an operand register, OVR, or an acceptance. -/
theorem State.hostWrite_cases (s : State) (r : HostReg) (d : Word) :
    s.hostWrite r d = s ∨
    (∃ opa opb opc, s.hostWrite r d = { s with regs := { s.regs with opa := opa, opb := opb, opc := opc } }) ∨
    (∃ o, s.hostWrite r d = { s with status := { s.status with ovr := o } }) ∨
    (r = .cmd ∧ s.status.busy = false ∧ s.hostWrite r d = s.accept d) := by
  cases r
  case cmd =>
    by_cases h : s.status.busy = true
    · exact .inr (.inr (.inl ⟨true, if_pos h⟩))
    · exact .inr (.inr (.inr ⟨rfl, by simpa using h, if_neg h⟩))
  case status =>
    refine .inr (.inr (.inl ⟨s.status.ovr && !d.getLsbD 3, ?_⟩))
    simp only [State.hostWrite, State.setStatus, Status.hostWrite]
    split <;> simp_all
  case opa => exact .inr (.inl ⟨d, s.regs.opb, s.regs.opc, rfl⟩)
  case opb => exact .inr (.inl ⟨s.regs.opa, d, s.regs.opc, rfl⟩)
  case opc => exact .inr (.inl ⟨s.regs.opa, s.regs.opb, d, rfl⟩)
  all_goals exact .inl rfl

/-- The form check of the host port is the well-formedness of the access (40_host_port.md R110). -/
theorem hostRegAt_isSome (off : Nat) : (hostRegAt off).isSome = true ↔ off % 4 = 0 ∧ off ≤ 0x3C := by
  constructor
  · intro h
    unfold hostRegAt at h
    split at h <;> first | omega | simp at h
  · rintro ⟨h1, h2⟩
    have : off ∈ [0, 4, 8, 12, 16, 20, 24, 28, 32, 36, 40, 44, 48, 52, 56, 60] := by
      simp only [List.mem_cons, List.not_mem_nil, or_false]; omega
    simp only [List.mem_cons, List.not_mem_nil, or_false] at this
    rcases this with h | h | h | h | h | h | h | h | h | h | h | h | h | h | h | h <;> subst h <;> rfl

end Sys2Proof.Machine
end

