-- ==== Sys2Proof/Laws/PerInstr.lean ====
section
/-! SUPPORT. Facts about each command as syntax, one lemma per constructor. -/

namespace Sys2Proof.Laws.EncodedWord

/-- The command word has RSV = 0, and its OP is the command's opcode, which is none of the reserved ones
(30_encoding.md R91, R92). -/
def Statement (i : Instr) : Prop :=
  i.wf = true ∧ (commandFields (encode i)).rsv = 0 ∧ (commandFields (encode i)).op = opcode i ∧
    (commandFields (encode i)).wf = true

theorem config : Statement .config := by unfold Statement; decide
theorem write : Statement .write := by unfold Statement; decide
theorem readi : Statement .readi := by unfold Statement; decide
theorem reado : Statement .reado := by unfold Statement; decide
theorem fillz : Statement .fillz := by unfold Statement; decide
theorem exportText : Statement .exportText := by unfold Statement; decide
theorem readc : Statement .readc := by unfold Statement; decide

end Sys2Proof.Laws.EncodedWord
end

