-- ==== Sys2Proof/Laws/Step.lean ====
section
/-! SUPPORT. Everything a step of the machine can do, said once: one case per agent and outcome. -/

namespace Sys2Proof.Machine

@[simp] theorem State.popTurn_eq (s : State) : s.popTurn = { s with schedule := s.schedule.tail } := rfl

/-- The next states of a step of the sequencer from `s`. -/
inductive SequencerCase (s : State) : State → Prop
  | idle (h : s.seq.phase = .idle) : SequencerCase s s
  | illegal (h : s.seq.phase = .run) (why : IllegalWord) (hd : decode s.lat.op = .illegal why) :
      SequencerCase s (s.complete .illegalCommand)
  | command (h : s.seq.phase = .run) (i : Instr) (hd : decode s.lat.op = .command i) (t : State) (he : exec i s = .next t) :
      SequencerCase s t

theorem sequencerStep_cases {s t : State} (h : s.sequencerStep = .next t) : SequencerCase s t := by
  unfold State.sequencerStep at h
  rcases hp : s.seq.phase
  · rw [hp] at h; cases h; exact .idle hp
  · rw [hp] at h
    rcases hd : decode s.lat.op with i | why
    · rw [hd] at h; exact .command hp i hd t h
    · rw [hd] at h; cases h; exact .illegal hp why hd

/-- Everything one access can do (40_host_port.md R110 to R112). -/
theorem State.hostAccess_cases (s : State) (a : HostAccess) :
    (accessReg s.params.hostBase a = none ∧ s.hostAccess a = .refused .hostNarrow) ∨
    (∃ r, accessReg s.params.hostBase a = some r ∧ a.kind = .read ∧
      s.hostAccess a = .next (s.returnToHost (s.hostRead r))) ∨
    (∃ r d, accessReg s.params.hostBase a = some r ∧ a.kind = .write d ∧ s.hostAccess a = .next (s.hostWrite r d)) := by
  unfold State.hostAccess
  rcases accessReg s.params.hostBase a with _ | r
  · exact .inl ⟨rfl, by simp only⟩
  · rcases a.kind with _ | d
    · exact .inr (.inl ⟨r, rfl, rfl, rfl⟩)
    · exact .inr (.inr ⟨r, d, rfl, rfl, rfl⟩)

/-- The next states of a step of the host from `s`. -/
inductive HostCase (s : State) : State → Prop
  | nothing (h : s.host.script = []) : HostCase s s
  | read (a : HostAccess) (rest : List HostOp) (r : HostReg) (h : s.host.script = .access a :: rest)
      (hr : accessReg s.params.hostBase a = some r) (hk : a.kind = .read) :
      HostCase s { s with host := { script := rest, reads := s.host.reads ++ [s.hostRead r] } }
  | write (a : HostAccess) (rest : List HostOp) (r : HostReg) (d : Word) (h : s.host.script = .access a :: rest)
      (hr : accessReg s.params.hostBase a = some r) (hk : a.kind = .write d) :
      HostCase s (({ s with host := { s.host with script := rest } }).hostWrite r d)
  | poll (rest : List HostOp) (h : s.host.script = .wait :: rest) :
      HostCase s { s with host := { script := if s.status.busy then s.host.script else rest,
                                    reads := s.host.reads ++ [statusWord s.status] } }

theorem hostStep_cases {s t : State} (h : s.hostStep = .next t) : HostCase s t := by
  unfold State.hostStep at h
  split at h
  · rename_i hs; cases h; exact .nothing hs
  · rename_i a rest hs
    rcases (s.setHost { s.host with script := rest }).hostAccess_cases a with
      ⟨_, e⟩ | ⟨r, hr, hk, e⟩ | ⟨r, d, hr, hk, e⟩ <;> rw [e] at h <;> cases h
    · have : (s.setHost { s.host with script := rest }).hostRead r = s.hostRead r := by cases r <;> rfl
      rw [this]
      exact .read a rest r hs hr hk
    · exact .write a rest r d hs hr hk
  · rename_i rest hs
    cases h
    have key := HostCase.poll (s := s) rest hs
    by_cases hb : s.status.busy = true
    · simp only [hb, if_true] at key ⊢; exact key
    · simp only [hb] at key ⊢; exact key

/-- The host's step is refused exactly on an access outside the admitted form, and never faults. -/
theorem hostStep_stops (s : State) :
    (∃ t, s.hostStep = .next t) ∨
    (s.hostStep = .refused .hostNarrow ∧ ∃ a rest, s.host.script = .access a :: rest ∧
      accessReg s.params.hostBase a = none) := by
  unfold State.hostStep
  split
  · exact .inl ⟨_, rfl⟩
  · rename_i a rest hs
    rcases (s.setHost { s.host with script := rest }).hostAccess_cases a with
      ⟨hr, e⟩ | ⟨r, hr, hk, e⟩ | ⟨r, d, hr, hk, e⟩ <;> rw [e]
    · exact .inr ⟨rfl, a, rest, hs, hr⟩
    · exact .inl ⟨_, rfl⟩
    · exact .inl ⟨_, rfl⟩
  · exact .inl ⟨_, rfl⟩

/-- The next states of a step of the machine from `s`. -/
inductive StepCase (s : State) : State → Prop
  | reset (h : s.turn = .reset) : StepCase s ({ s with schedule := s.schedule.tail }).applyReset
  | bringUp (h : s.turn = .bringUp) : StepCase s { s with schedule := s.schedule.tail, windowReady := true }
  | host (h : s.turn = .host) (t : State) (hc : HostCase { s with schedule := s.schedule.tail } t) : StepCase s t
  | sequencer (h : s.turn = .sequencer) (t : State) (hc : SequencerCase { s with schedule := s.schedule.tail } t) :
      StepCase s t

theorem step_cases {s t : State} (h : step s = .next t) : StepCase s t := by
  unfold step at h
  rw [State.popTurn_eq] at h
  rcases ht : s.turn <;> rw [ht] at h
  · exact .host ht t (hostStep_cases h)
  · exact .sequencer ht t (sequencerStep_cases h)
  · cases h; exact .reset ht
  · cases h; exact .bringUp ht

end Sys2Proof.Machine
end

