-- ==== Sys2Proof/Laws/Window.lean ====
section
/-! SUPPORT. The arithmetic of the window and of a word's bytes: where the slots of an in-contract configuration lie, when an
access is inside the window, and how a word is put together from its bytes. -/

namespace Sys2Proof.Machine

theorem State.wordBytes_pos (s : State) : 0 < s.wordBytes := s.params.wordBytes.count_pos
theorem State.wordBytes_le (s : State) : s.wordBytes ≤ 4 := s.params.wordBytes.count_le

/-! ### Bytes -/

/-- The `k`-th address from `a` on is `k` bytes along. -/
theorem add_sub_toNat (a : Word) (k : Nat) (hk : k < 2 ^ 32) : ((a + BitVec.ofNat 32 k) - a).toNat = k := by
  have : (BitVec.ofNat 32 k).toNat = k := by simp; omega
  bv_omega

/-- Each address of a run is the `k`-th one for some `k`. -/
theorem inBytes_offset (a : Word) (n : Nat) (x : Word) (h : inBytes a n x) : ∃ k, k < n ∧ x = a + BitVec.ofNat 32 k := by
  refine ⟨(x - a).toNat, h, ?_⟩
  apply BitVec.eq_of_toNat_eq
  simp
  omega

/-- The `k`-th byte of a word, as a quotient and as a field. -/
theorem ofNat_div_eq_extractLsb' (v : Word) (k : Nat) : BitVec.ofNat 8 (v.toNat / 256 ^ k) = v.extractLsb' (8 * k) 8 := by
  apply BitVec.eq_of_toNat_eq
  simp [BitVec.extractLsb'_toNat, Nat.shiftRight_eq_div_pow]
  rw [show (256 : Nat) = 2 ^ 8 from rfl, ← Nat.pow_mul]

/-- Truncating to `WORD_BITS` keeps each of the word's bytes. -/
theorem State.truncTo_byte (s : State) (v : Word) (k : Nat) (hk : k < s.wordBytes) :
    BitVec.ofNat 8 ((truncTo s.params.wordBits v).toNat / 256 ^ k) = v.extractLsb' (8 * k) 8 := by
  rw [← ofNat_div_eq_extractLsb']
  apply BitVec.eq_of_toNat_eq
  rw [truncTo_toNat]
  unfold State.wordBytes at hk
  unfold Params.wordBits
  simp only [BitVec.toNat_ofNat]
  generalize v.toNat = n
  generalize s.params.wordBytes = w at *
  cases w
  · simp [WordBytes.count] at *; subst hk; simp
  · simp [WordBytes.count] at *
    have : k = 0 ∨ k = 1 := by omega
    rcases this with rfl | rfl
    · simp
    · simp; omega
  · simp [WordBytes.count] at *
    have : k = 0 ∨ k = 1 ∨ k = 2 ∨ k = 3 := by omega
    rcases this with rfl | rfl | rfl | rfl <;> simp <;> omega

/-- A load reads back the word whose bytes are in place. -/
theorem State.load_of_bytes (s : State) (m : Memory) (a v : Word)
    (h : ∀ k : Nat, k < s.wordBytes → m.byte (a + BitVec.ofNat 32 k) = v.extractLsb' (8 * k) 8) :
    m.load a s.wordBytes = v.toNat % 2 ^ s.params.wordBits := by
  have h4 := s.wordBytes_le
  have : m.load a s.wordBytes = (Memory.store [] a s.wordBytes v.toNat).load a s.wordBytes := by
    apply Memory.load_congr _ _ _ _ _ (by omega)
    intro x hx
    obtain ⟨k, hk, rfl⟩ := inBytes_offset _ _ x hx
    rw [h k hk, Memory.byte_store [] ⟨by simp, by simp⟩ _ (by omega), if_pos hx, add_sub_toNat _ _ (by omega),
      ofNat_div_eq_extractLsb']
  rw [this, Memory.load_store [] ⟨by simp, by simp⟩ _ (by omega)]
  congr 1
  unfold Params.wordBits State.wordBytes
  rw [show (256 : Nat) = 2 ^ 8 from rfl, ← Nat.pow_mul]

/-- A load as the sum of 20_memory.md R62. -/
theorem Memory.load_eq_sum (m : Memory) (n : Nat) : ∀ a : Word,
    m.load a n = ((List.range n).map (fun k => (m.byte (a + BitVec.ofNat 32 k)).toNat * 2 ^ (8 * k))).sum := by
  induction n with
  | zero => intro a; rfl
  | succ n ih =>
    intro a
    simp only [Memory.load]
    rw [ih, List.range_succ_eq_map, List.map_cons, List.sum_cons, List.map_map]
    simp only [Nat.mul_zero, Nat.pow_zero, Nat.mul_one, BitVec.ofNat_eq_ofNat, BitVec.add_zero]
    congr 1
    rw [← List.sum_map_mul_left]
    congr 1
    apply List.map_congr_left
    intro k _
    simp only [Function.comp]
    have this : a + 1#32 + BitVec.ofNat 32 k = a + BitVec.ofNat 32 (k + 1) := by
      apply BitVec.eq_of_toNat_eq; simp; omega
    rw [this, show 8 * Nat.succ k = 8 + 8 * k by omega, Nat.pow_add]
    ring

/-! ### The window -/

theorem State.windowInContract_iff (s : State) : s.windowInContract ↔
    s.wordBytes ≤ s.regs.increment.toNat ∧ s.windowEnd ≤ 2 ^ 32 := by
  simp [State.windowInContract, configInContract, State.windowEnd]

/-- The end of slot `i`, as an exact number, is not past the window's end. -/
theorem State.slotEnd_le (s : State) (h : s.windowInContract) {i : Nat} (hi : i < s.regs.capacity.toNat) :
    s.regs.base.toNat + s.regs.increment.toNat * i + s.wordBytes ≤ s.windowEnd := by
  obtain ⟨h1, _⟩ := s.windowInContract_iff.mp h
  have : s.regs.increment.toNat * (i + 1) ≤ s.regs.increment.toNat * s.regs.capacity.toNat := Nat.mul_le_mul_left _ hi
  rw [Nat.mul_succ] at this
  unfold State.windowEnd
  omega

/-- A slot's address does not wrap under an in-contract configuration. -/
theorem State.addrOf_toNat_of_inContract (s : State) (h : s.windowInContract) {i : Nat} (hi : i < s.regs.capacity.toNat) :
    (s.addrOf i).toNat = s.regs.base.toNat + s.regs.increment.toNat * i := by
  have h1 := s.slotEnd_le h hi
  have h2 := s.wordBytes_pos
  have h3 := (s.windowInContract_iff.mp h).2
  unfold State.addrOf
  rw [BitVec.toNat_ofNat, Nat.mod_eq_of_lt (by omega)]

/-- Bytes that lie between the bounds without wrapping are inside. -/
theorem bytesInWindow_of_le (lo hi : Nat) (hhi : hi ≤ 2 ^ 32) : ∀ (n : Nat) (a : Word), lo ≤ a.toNat → a.toNat + n ≤ hi →
    bytesInWindow lo hi a n = true := by
  intro n
  induction n with
  | zero => intros; rfl
  | succ n ih =>
    intro a h1 h2
    unfold bytesInWindow
    rw [Bool.and_eq_true]
    constructor
    · unfold byteInWindow; simp [h1]; omega
    · rcases n with _ | n
      · rfl
      · have : (a + 1).toNat = a.toNat + 1 := by bv_omega
        apply ih <;> omega

/-- One byte outside the bounds puts the run outside. -/
theorem bytesInWindow_eq_false (lo hi : Nat) : ∀ (n : Nat) (a : Word),
    (∃ k, k < n ∧ byteInWindow lo hi (a + BitVec.ofNat 32 k) = false) → bytesInWindow lo hi a n = false := by
  intro n
  induction n with
  | zero => rintro a ⟨k, hk, _⟩; omega
  | succ n ih =>
    rintro a ⟨k, hk, h⟩
    unfold bytesInWindow
    rcases k with _ | k
    · simp at h; simp [h]
    · have : a + 1 + BitVec.ofNat 32 k = a + BitVec.ofNat 32 (k + 1) := by
        apply BitVec.eq_of_toNat_eq; simp; omega
      rw [ih (a + 1) ⟨k, by omega, by rw [this]; exact h⟩]; simp

end Sys2Proof.Machine
end

