-- ==== Sys2Proof/Laws/Run.lean ====
section
/-! SUPPORT. How runs are cut and joined: steps of the sequencer, and calls of a command. -/

namespace Sys2Proof.Machine

theorem decode_encode (i : Instr) : decode (encode i) = .command i := by cases i <;> decide

/-- The sequencer's step of a running command. -/
theorem State.sequencerStep_command (s : State) (i : Instr) (hp : s.seq.phase = .run) (hd : decode s.lat.op = .command i) :
    s.sequencerStep = exec i s := by
  unfold State.sequencerStep
  rw [hp]
  simp only
  rw [hd]

/-- A run of steps is one run after another. -/
theorem State.sequencerSteps_add (n m : Nat) : ∀ s t : State, State.sequencerSteps n s = .next t →
    State.sequencerSteps (n + m) s = State.sequencerSteps m t := by
  induction n with
  | zero => intro s t h; cases h; simp
  | succ n ih =>
    intro s t h
    rw [show n + 1 + m = (n + m) + 1 by omega]
    simp only [State.sequencerSteps] at h ⊢
    rcases hh : s.sequencerStep with u | f | r <;> rw [hh] at h
    · exact ih u t h
    · cases h
    · cases h

/-- A run of the machine, one step unrolled. -/
theorem run_of_step (n : Nat) (s t : State) (h : step s = .next t) :
    Host.Core.run core (n + 1) s = Host.Core.run core n t := by
  have key : ∀ (M : Host.Core) (u v : M.State), M.step u = .next v → M.run (n + 1) u = M.run n v := by
    intro M u v h
    simp only [Host.Core.run, h]
  exact key core s t h

/-- A run of WRITE calls is one run after another. -/
theorem State.callWrites_append (vs ws : List Word) : ∀ s t : State, State.callWrites vs s = .next t →
    State.callWrites (vs ++ ws) s = State.callWrites ws t := by
  induction vs with
  | nil => intro s t h; cases h; rfl
  | cons v vs ih =>
    intro s t h
    simp only [List.cons_append, State.callWrites] at h ⊢
    rcases hh : s.call (encode .write) v with u | f | r <;> rw [hh] at h
    · exact ih u t h
    · cases h
    · cases h

/-- The state in which a called command takes its step (40_host_port.md R114). -/
def State.called (s : State) (w a : Word) : State := (s.hostWrite .opa a).accept w

theorem State.called_eq (s : State) (w a : Word) : s.called w a = { s with
    regs := { s.regs with opa := a }
    lat := { op := w, a := a, b := s.regs.opb, c := s.regs.opc }
    status := { s.status with busy := true, err := .ok }
    seq := { phase := .run, i := 0, word := 0, bytes := [], t0 := (s.tickAtAccept w).1 }
    draws := (s.tickAtAccept w).2 } := rfl

theorem State.call_eq_exec (s : State) (i : Instr) (a : Word) (hb : s.status.busy = false) :
    s.call (encode i) a = exec i (s.called (encode i) a) := by
  have hc : (s.hostWrite .opa a).hostWrite .cmd (encode i) = s.called (encode i) a := by
    show (s.hostWrite .opa a).cmdWrite (encode i) = _
    unfold State.cmdWrite
    rw [if_neg (by show ¬ s.status.busy = true; simp [hb])]
    rfl
  unfold State.call
  rw [hc]
  exact State.sequencerStep_command _ i rfl (decode_encode i)

end Sys2Proof.Machine
end

