-- ==== Sys2Proof/Tests/Slice0.lean ====
section
/-! SUPPORT. The model's own tests. Expected values come from the spec: the encodings of 30_encoding.md R92 and the vectors of
95_test_vectors.md, named where they are used. The last part shows, for every statement with hypotheses, a concrete state and
operands that meet all of them together. -/

namespace Sys2Proof.Tests

open Sys2Proof Sys2Proof.Machine

/-! ### The checks of WellFormed refuse an ill-formed term -/

theorem test_wf_fields_reserved_bit_set : CommandFields.wf { rsv := 1, op := 2 } = false := by decide
theorem test_wf_fields_op_zero : CommandFields.wf { rsv := 0, op := 0 } = false := by decide
theorem test_wf_fields_op_eight : CommandFields.wf { rsv := 0, op := 8 } = false := by decide
theorem test_wf_fields_op_seven : CommandFields.wf { rsv := 0, op := 7 } = true := by decide
theorem test_wf_access_of_two_bytes : HostAccess.wf 0x100 { addr := 0x104, size := 2, kind := .read } = false := by decide
theorem test_wf_access_below_base : HostAccess.wf 0x100 { addr := 0xFC, size := 4, kind := .read } = false := by decide
theorem test_wf_access_unaligned : HostAccess.wf 0x100 { addr := 0x106, size := 4, kind := .read } = false := by decide
theorem test_wf_access_past_window : HostAccess.wf 0x100 { addr := 0x140, size := 4, kind := .read } = false := by decide
theorem test_wf_access_last_register : HostAccess.wf 0x100 { addr := 0x13C, size := 4, kind := .read } = true := by decide
theorem test_wf_params_tick_zero : Params.wf { Params.default with tickBits := 0 } = false := by decide
theorem test_wf_params_tick_33 : Params.wf { Params.default with tickBits := 33 } = false := by decide
theorem test_wf_params_default : Params.default.wf = true := by decide

/-! ### Decoding, from words written out bit by bit (30_encoding.md R91, R92) -/

theorem test_decode_config : decode 0b00000000000000000000000000000001 = .command .config := by decide
theorem test_decode_write : decode 0b00000000000000000000000000000010 = .command .write := by decide
theorem test_decode_readi : decode 0b00000000000000000000000000000011 = .command .readi := by decide
theorem test_decode_reado : decode 0b00000000000000000000000000000100 = .command .reado := by decide
theorem test_decode_fillz : decode 0b00000000000000000000000000000101 = .command .fillz := by decide
theorem test_decode_export : decode 0b00000000000000000000000000000110 = .command .exportText := by decide
theorem test_decode_readc : decode 0b00000000000000000000000000000111 = .command .readc := by decide

/-- V-H6: the words that must not fall through to a neighbour. -/
theorem test_decode_illegal :
    decode 0x0 = .illegal .reservedOpcode ∧ decode 0x8 = .illegal .reservedOpcode ∧
    decode 0xF = .illegal .reservedOpcode ∧ decode 0x10 = .illegal .reservedBits ∧
    decode 0x12 = .illegal .reservedBits ∧ decode 0x80000002 = .illegal .reservedBits ∧
    decode 0xFFFFFFFF = .illegal .reservedBits := by decide

theorem test_decode_table_words :
    decodeTableWord 32 0x00000006 = some .exportText ∧ decodeTableWord 32 0x00000012 = none := by decide

/-! ### The states the tests start from -/

/-- S1 of 95_test_vectors.md: the end state of W1, with some parameters. -/
def s1With (p : Params) : State :=
  { State.reset with
    params := p
    status := { State.reset.status with configured := true }
    regs := { State.reset.regs with capacity := 4, base := 0x1000, increment := 2, cursor := 1 }
    mem := [(0x1000, 0x32), (0x1001, 0x00), (0x1002, 0x14), (0x1003, 0x00), (0x1004, 0x1E), (0x1005, 0x00),
            (0x1006, 0x28), (0x1007, 0x00)] }

def s1 : State := s1With Params.default

/-- A state in which a command word has been accepted with the operands `a`, `b`, `c`. -/
def State.accepted (s : State) (w a b c : Word) : State :=
  { s with
    status := { s.status with busy := true, err := .ok }
    lat := { op := w, a := a, b := b, c := c }
    seq := { phase := .run, i := 0, word := 0, bytes := [], t0 := 0 } }

def running (w a : Word) : State := State.accepted s1 w a 0 0

/-- S1 with an EXPORT under way: three slots read, or all four when `i` is 4, and some bytes still to offer. -/
def exporting (i : BitVec 33) (bytes : List Byte) (answers : List SinkAnswer) : State :=
  { running 6 0 with
    seq := { phase := .run, i := i, word := 0x28, bytes := bytes, t0 := 0 }
    sink := { stream := [0x30], answers := answers } }

/-- The outcome is a next state of which a check holds. -/
def nextWith (o : Host.Outcome State Fault Refusal) (check : State → Bool) : Bool :=
  match o with
  | .next t => check t
  | .fault _ => false
  | .refused _ => false

/-! ### One step of each instruction (95_test_vectors.md) -/

/-- V-C2. -/
theorem test_config_installs :
    nextWith (exec .config (State.accepted State.reset 1 1 0x60000000 2)) (fun t =>
      statusWord t.status == 0x002 && t.regs.capacity == 1 && t.regs.base == 0x60000000 && t.regs.increment == 2 &&
      t.regs.cursor == 0 && !t.marks.cfgOutOfContract) = true := by decide

/-- V-C8; V-C5 and V-C4 for the mark. -/
theorem test_config_fails_and_marks :
    nextWith (exec .config (State.accepted s1 1 0 0 0)) (fun t => statusWord t.status == 0x100 && t.regs == s1.regs) = true ∧
    nextWith (exec .config (State.accepted s1 1 2 0xFFFFFFFE 2)) (fun t => t.marks.cfgOutOfContract && t.addrOf 1 == 0) = true ∧
    nextWith (exec .config (State.accepted s1 1 2 0xFFFFFFFC 2)) (fun t => !t.marks.cfgOutOfContract) = true := by decide

/-- V-W4. -/
theorem test_write_truncates :
    nextWith (exec .write (running 2 0x00012345)) (fun t =>
      t.mem == [(0x1000, 0x32), (0x1001, 0x00), (0x1002, 0x45), (0x1003, 0x23), (0x1004, 0x1E), (0x1005, 0x00),
                (0x1006, 0x28), (0x1007, 0x00)] && t.regs.cursor == 2 && t.regs.result == 0) = true := by decide

/-- V-W2: the cursor wraps. -/
theorem test_write_wraps :
    nextWith (exec .write { running 2 5 with regs := { s1.regs with cursor := 3 } }) (fun t =>
      t.byteAt 0x1006 == 0x05 && t.byteAt 0x1007 == 0x00 && t.regs.cursor == 0) = true := by decide

/-- V-I3: the address wraps into the window. -/
theorem test_readi_wraps :
    nextWith (exec .readi (running 3 0x80000000)) (fun t =>
      t.regs.result == 0x32 && t.regs.cursor == 1 && t.marks.oowReads == []) = true := by decide

/-- V-I2: outside the window, whatever the word. -/
theorem test_readi_outside :
    nextWith (exec .readi (running 3 4)) (fun t =>
      t.marks.oowReads == [0x1008] && statusWord t.status == 0x002) = true := by decide

/-- V-O1. -/
theorem test_reado_offset :
    nextWith (exec .reado (running 4 6)) (fun t => t.regs.result == 0x28) = true := by decide

/-- V-O3. -/
theorem test_reado_split :
    nextWith (exec .reado (State.accepted (s1With { Params.default with misalignedMode := .splitLE }) 4 1 0 0))
      (fun t => t.regs.result == 0x1400) = true := by decide

/-- V-K1. -/
theorem test_readc_last_index :
    nextWith (exec .readc (running 7 3)) (fun t => t.regs.result == 0x28 && statusWord t.status == 0x002) = true := by decide

/-- V-K2. -/
theorem test_readc_out_of_range :
    nextWith (exec .readc { running 7 4 with regs := { s1.regs with result := 0x28 } }) (fun t =>
      statusWord t.status == 0x502 && t.regs.result == 0x28 && t.marks.oowReads == []) = true := by decide

/-- V-F1, the first step. -/
theorem test_fillz_first_step :
    nextWith (exec .fillz (running 5 0)) (fun t =>
      t.byteAt 0x1000 == 0 && t.byteAt 0x1001 == 0 && t.byteAt 0x1002 == 0x14 && t.regs.cursor == 1 &&
      t.status.busy && t.seq.i == 1) = true := by decide

/-- V-F2. -/
theorem test_fillz_one_slot :
    nextWith (exec .fillz { running 5 0 with
      regs := { s1.regs with capacity := 1, base := 0x3000, cursor := 0 }, mem := [(0x3000, 0xEF), (0x3001, 0xBE)] })
      (fun t => t.mem == [(0x3000, 0), (0x3001, 0)] && t.regs.cursor == 0 && statusWord t.status == 0x002) = true := by decide

/-- V-E1, the first token. -/
theorem test_export_reads_token :
    nextWith (exec .exportText (running 6 0)) (fun t =>
      t.seq.bytes == [0x30, 0x30, 0x33, 0x32, 0x20] && t.seq.i == 1 && t.regs == s1.regs) = true := by decide

/-- V-E1, the last byte; V-E7, a failure. -/
theorem test_export_ends :
    nextWith (exec .exportText (exporting 4 [0x20] [.accept])) (fun t =>
      t.sink.stream == [0x30, 0x20] && t.regs.cursor == 0 && statusWord t.status == 0x006) = true ∧
    nextWith (exec .exportText (exporting 4 [0x20] [.fail])) (fun t =>
      t.sink.stream == [0x30] && t.regs == s1.regs && statusWord t.status == 0x202) = true := by decide

/-- 43_bulk.md R177, R178: the examples of tokens. -/
theorem test_tokens :
    token Params.default 0x002A = [0x30, 0x30, 0x32, 0x41] ∧
    token { Params.default with tokenMode := .minimal } 0x002A = [0x32, 0x41] ∧
    token { Params.default with tokenMode := .minimal } 0 = [0x30] ∧
    token { Params.default with wordBytes := .four } 0xDEADBEEF = [0x44, 0x45, 0x41, 0x44, 0x42, 0x45, 0x45, 0x46] := by decide

/-! ### The host port (95_test_vectors.md) -/

/-- V-H1. -/
theorem test_reset_registers :
    State.reset.hostRead .status = 0 ∧ State.reset.hostRead .params = 0x01202002 ∧ State.reset.hostRead .cmd = 0 ∧
    State.reset.hostRead .reserved = 0 := by decide

/-- V-H2, V-H3, V-H4. -/
theorem test_host_writes :
    statusWord (({ s1 with status := { s1.status with ovr := true } }).hostWrite .status 0xFFFFFFFF).status = 0x002 ∧
    statusWord (s1.hostWrite .status 7).status = 0x002 ∧ s1.hostWrite .cursor 0 = s1 := by decide

/-- V-H7, V-H8: the order of the errors. -/
theorem test_first_step_errors :
    nextWith (State.accepted State.reset 0x17 0 0 0).sequencerStep (fun t => statusWord t.status == 0x400) = true ∧
    nextWith (State.accepted State.reset 2 5 0 0).sequencerStep (fun t =>
      statusWord t.status == 0x300 && t.mem == []) = true := by decide

/-- Placing a word: the next step runs it as the first command after reset (V-H8). -/
theorem test_with_fetch_word :
    nextWith (step (State.reset.withFetchWord 32 2)) (fun t => statusWord t.status == 0x300 && t.seq.phase == .idle) = true := by
  decide

/-- 60_exceptions.md R214, 90_conflicts.md C3: accepting FILLZ, WRITE or an illegal word samples nothing. -/
theorem test_only_export_samples :
    let s := { s1 with seq := { s1.seq with t0 := 7 } }
    (s.accept 5).seq.t0 = 7 ∧ (s.accept 5).draws = 0 ∧ (s.accept 2).draws = 0 ∧ (s.accept 0).draws = 0 ∧
    (s.accept 6).draws = 1 := by decide

/-- P3, line 2, as the host script expands it: CONFIG with capacity 0 after reset. -/
theorem test_pseudo_config :
    nextWith (core.run 6 { State.reset with host := { script := expand 0 (.config 0 0x2000 4), reads := [] } }) (fun t =>
      t.host.script == [] && t.host.reads == [0x100]) = true := by decide

/-! ### The hypotheses of the statements are met

One theorem per statement with hypotheses, named after it. Where a statement has several clauses over one input, each clause
has its case, at the ends of the input's range. -/

/-- S1 with the next access of the host's script. -/
def hostIs (s : State) (a : HostAccess) : State := { s with host := { script := [.access a], reads := [] } }

/-- S1 under `OPEN` with BASE moved to an odd address. -/
def oddBase (w a : Word) : State := { running w a with regs := { s1.regs with base := 0x1001 } }

/-- S1 with no stride, so that no address is inside the (empty) window. -/
def noStride (w a : Word) : State := { running w a with regs := { s1.regs with increment := 0 } }

/-- S1 with CURSOR = 0. -/
def s1At0 : State := { s1 with regs := { s1.regs with cursor := 0 } }

/-- S1 with a schedule. -/
def scheduled (ts : List Turn) : State := { running 2 7 with schedule := ts }

theorem witness_DecodeAndEncodeAgree :
    Instr.wf .config = true ∧ Instr.wf .readc = true ∧ (encode .config).toNat < 2 ^ 32 ∧ 0xFFFFFFFF < 2 ^ 32 := by decide

theorem witness_StepRunsTheDecodedCommand :
    (running 2 7).turn = .sequencer ∧ (running 2 7).seq.phase = .run ∧ decode (running 2 7).lat.op = .command .write := by decide

theorem witness_ScheduledAgentMoves :
    (scheduled [.host]).schedule = .host :: [] ∧ (scheduled [.sequencer]).schedule = .sequencer :: [] ∧
    (scheduled [.reset]).schedule = .reset :: [] ∧ (scheduled [.bringUp]).schedule = .bringUp :: [] ∧
    (scheduled []).schedule = [] ∧ (scheduled []).seq.phase = .run ∧ (scheduled []).awaitingSink = false ∧
    s1.schedule = [] ∧ s1.seq.phase = .idle := by decide

theorem witness_IllegalWordIsRejected :
    (running 0x12 0).seq.phase = .run ∧ (running 0 0).seq.phase = .run ∧
    decode (running 0x12 0).lat.op = .illegal .reservedBits ∧ decode (running 0 0).lat.op = .illegal .reservedOpcode := by decide

theorem witness_CommandsNeedAnInstance :
    Instr.write ≠ .config ∧ Instr.exportText ≠ .config ∧ (State.accepted State.reset 2 5 0 0).firstStep = true ∧
    (State.accepted State.reset 2 5 0 0).status.configured = false := by decide

theorem witness_FirstStepReportsTheFirstErrorThatApplies :
    (s1.status.configured = true → 0 < s1.regs.capacity.toNat) ∧ s1.status.configured = true ∧
    (State.reset.status.configured = true → 0 < State.reset.regs.capacity.toNat) := by decide

theorem witness_CompletionReportsTheFirstErrorThatApplies :
    (running 0x12 0).Inv ∧ nextWith (step (running 0x12 0)) (fun t => decide (completesIn (running 0x12 0) t)) = true ∧
    (exporting 1 [0x20] [.fail]).Inv ∧
    nextWith (step (exporting 1 [0x20] [.fail])) (fun t => decide (completesIn (exporting 1 [0x20] [.fail]) t)) = true :=
  ⟨by decide, by decide, by decide, by decide⟩

theorem witness_OneStepCommandsCompleteAtOnce :
    decode 0x2 ≠ .command .fillz ∧ decode 0x2 ≠ .command .exportText ∧
    decode 0x0 ≠ .command .fillz ∧ decode 0x0 ≠ .command .exportText := by decide

theorem witness_ParamsReadsItsFields :
    s1.params.wf = true ∧ s1.params = Params.default ∧
    Params.wf { Params.default with tickBits := 1, wordBytes := .four, tokenMode := .minimal } = true := by decide

theorem witness_HostReadsReturnTheRegister :
    (hostIs s1 { addr := s1.params.hostBase + 0x00, size := 4, kind := .read }).host.script =
      .access { addr := s1.params.hostBase + 0x00, size := 4, kind := .read } :: [] ∧
    (hostIs s1 { addr := s1.params.hostBase + 0x3C, size := 4, kind := .read }).host.script =
      .access { addr := s1.params.hostBase + 0x3C, size := 4, kind := .read } :: [] := by decide

theorem witness_HostWritesReachOnlyTheirRegister :
    0x00 % 4 = 0 ∧ 0x04 % 4 = 0 ∧ 0x04 ≤ 0x3C ∧ 0x04 ≠ 0x00 ∧ 0x3C % 4 = 0 ∧ 0x3C ≤ 0x3C ∧
    (hostIs s1 { addr := s1.params.hostBase + 0x00, size := 4, kind := .write 2 }).host.script =
      .access { addr := s1.params.hostBase + 0x00, size := 4, kind := .write 2 } :: [] ∧
    (hostIs s1 { addr := s1.params.hostBase + 0x04, size := 4, kind := .write 8 }).host.script =
      .access { addr := s1.params.hostBase + 0x04, size := 4, kind := .write 8 } :: [] ∧
    (hostIs s1 { addr := s1.params.hostBase + 0x3C, size := 4, kind := .write 8 }).host.script =
      .access { addr := s1.params.hostBase + 0x3C, size := 4, kind := .write 8 } :: [] := by decide

theorem witness_CommandWriteWhileIdleIsAccepted :
    s1.status.busy = false ∧
    (hostIs s1 { addr := s1.params.hostBase, size := 4, kind := .write 2 }).host.script =
      .access { addr := s1.params.hostBase, size := 4, kind := .write 2 } :: [] ∧
    decode 2 ≠ .command .exportText ∧ decode 6 = .command .exportText ∧
    (hostIs s1 { addr := s1.params.hostBase, size := 4, kind := .write 6 }).host.script =
      .access { addr := s1.params.hostBase, size := 4, kind := .write 6 } :: [] := by decide

theorem witness_CommandWriteWhileBusyIsDropped :
    (hostIs (running 5 0) { addr := s1.params.hostBase, size := 4, kind := .write 6 }).status.busy = true ∧
    (hostIs (running 5 0) { addr := s1.params.hostBase, size := 4, kind := .write 6 }).host.script =
      .access { addr := (running 5 0).params.hostBase, size := 4, kind := .write 6 } :: [] ∧
    (let s := { s1 with status := { s1.status with ovr := true } }
     nextWith (step s) (fun t => t.status.ovr) = true ∧ s.status.ovr = true ∧ s.turn ≠ .reset ∧ s.host.script = []) := by
  decide

theorem witness_NarrowAccessesAreRefused :
    (hostIs s1 { addr := 2, size := 2, kind := .read }).host.script = .access { addr := 2, size := 2, kind := .read } :: [] ∧
    HostAccess.wf s1.params.hostBase { addr := 2, size := 2, kind := .read } = false ∧
    HostAccess.wf s1.params.hostBase { addr := 0x40, size := 4, kind := .read } = false ∧
    HostAccess.wf s1.params.hostBase { addr := 0x3C, size := 4, kind := .read } = true := by decide

theorem witness_HostScriptIsASynchronousCall :
    let s := { s1 with host := { script := [hostWR s1.params.hostBase .opa 9, hostWR s1.params.hostBase .cmd 2, .wait],
                                 reads := [] } }
    s.schedule = [] ∧ s.seq.phase = .idle ∧ s.status.busy = false ∧ decode 0x2 ≠ .command .fillz ∧
    decode 0x2 ≠ .command .exportText ∧
    s.host.script = hostWR s.params.hostBase .opa 9 :: hostWR s.params.hostBase .cmd 2 :: .wait :: [] := by decide

theorem witness_ConfigInstallsTheInstance :
    (State.accepted s1 1 0 0 2).lat.a.toNat = 0 ∧ (State.accepted s1 1 1 0 0).lat.a.toNat ≠ 0 ∧ (State.accepted s1 1 0xFFFFFFFF 0 2).lat.a.toNat ≠ 0 := by decide

theorem witness_ConfigWithCapacityZeroDestroysTheInstance :
    (State.accepted s1 1 0 0x2000 2).lat.a.toNat = 0 ∧ State.reset.status.configured = false ∧ Instr.write ≠ .config ∧
    (let s := State.accepted State.reset 1 1 0x60000000 2
     s.status.configured = false ∧ nextWith (step s) (fun t => t.status.configured) = true) := by decide

theorem witness_SlotsLieInsideTheWindow :
    s1.windowInContract ∧ 0 < s1.regs.capacity.toNat ∧ 3 < s1.regs.capacity.toNat := by decide

theorem witness_SlotsDoNotOverlap :
    s1.windowInContract ∧ 3 < s1.regs.capacity.toNat ∧ s1.wordBytes ≤ s1.regs.increment.toNat ∧
    0 < 2 ^ 32 / s1.regs.increment.toNat ∧ 2 ^ 31 - 1 < 2 ^ 32 / s1.regs.increment.toNat ∧
    inBytes (s1.addrOf (2 ^ 31 - 1)) s1.wordBytes 0xFFF ∧ inBytes (s1.addrOf 0) s1.wordBytes 0x1001 := by decide

theorem witness_WriteStoresAtTheCursorAndAdvances :
    s1.mem.wf ∧ s1.status.configured = true ∧ s1.byteExact s1.writeAddr = true ∧
    (oddBase 2 7).mem.wf ∧ (oddBase 2 7).byteExact (oddBase 2 7).writeAddr = false := by decide

theorem witness_ReadsReturnTheWordInTheWindow :
    s1.status.configured = true ∧ (running 3 0).indexAddr = 0x1000 ∧ (running 4 6).offsetAddr = 0x1006 ∧
    (running 7 3).indexAddr = 0x1006 ∧ (running 7 3).lat.a.toNat < (running 7 3).regs.capacity.toNat ∧
    s1.inWindow 0x1000 = true ∧ s1.byteExact 0x1000 = true ∧ s1.inWindow 0x1006 = true ∧ s1.byteExact 0x1006 = true := by
  decide

theorem witness_ReadsOutsideTheWindowAreDrawn :
    ((running 3 4).indexAddr + BitVec.ofNat 32 0).toNat = s1.windowEnd ∧
    ((running 4 0xFFFFFFFF).offsetAddr + BitVec.ofNat 32 0).toNat < s1.regs.base.toNat ∧
    (noStride 7 3).lat.a.toNat < (noStride 7 3).regs.capacity.toNat ∧
    (noStride 7 3).windowEnd ≤ ((noStride 7 3).indexAddr + BitVec.ofNat 32 0).toNat ∧
    (noStride 7 3).status.configured = true ∧ 0 < s1.wordBytes := by decide

theorem witness_MisalignedReadsAreDrawnUnderOpen :
    (running 4 1).offsetAddr = 0x1001 ∧ (running 4 1).inWindow 0x1001 = true ∧
    (running 4 1).params.misalignedMode = .openDraw ∧ (0x1001 : Word).toNat % (running 4 1).wordBytes ≠ 0 ∧
    (oddBase 3 0).indexAddr = 0x1001 ∧ (oddBase 3 0).inWindow 0x1001 = true ∧
    (oddBase 7 3).indexAddr = 0x1007 ∧ (oddBase 7 3).inWindow 0x1007 = true ∧ (0x1007 : Word).toNat % 2 ≠ 0 ∧
    (oddBase 7 3).lat.a.toNat < (oddBase 7 3).regs.capacity.toNat ∧ (oddBase 7 3).status.configured = true := by decide

theorem witness_ReadcRejectsAnIndexOutOfRange :
    (running 7 4).status.configured = true ∧ (running 7 4).regs.capacity.toNat ≤ (running 7 4).lat.a.toNat := by decide

theorem witness_UncheckedCommandsNeverRaise : (running 3 0xFFFFFFFF).status.configured = true := by decide

theorem witness_IndexedAndOffsetReadsAgree :
    s1.status.configured = true ∧ s1.status.busy = false ∧ s1.windowInContract ∧ 3 < s1.regs.capacity.toNat ∧
    s1.byteExact (s1.addrOf 3) = true ∧ s1.byteExact (s1.addrOf 0) = true := by decide

theorem witness_ReadAfterWriteReturnsTheWord :
    s1.mem.wf ∧ s1.status.configured = true ∧ s1.status.busy = false ∧ s1.windowInContract ∧
    s1.regs.cursor.toNat < s1.regs.capacity.toNat ∧ s1.byteExact s1.writeAddr = true := by decide

theorem witness_WriteSequenceLaw :
    s1At0.mem.wf ∧ s1At0.status.configured = true ∧ s1At0.status.busy = false ∧ s1At0.regs.cursor = 0 ∧
    0 < s1At0.regs.capacity.toNat ∧ s1At0.byteExact (s1At0.addrOf (5 % s1At0.regs.capacity.toNat)) = true := by decide

theorem witness_CircularBufferHoldsTheLastLap :
    s1At0.mem.wf ∧ s1At0.status.configured = true ∧ s1At0.status.busy = false ∧ s1At0.regs.cursor = 0 ∧
    0 < s1At0.regs.capacity.toNat ∧ s1At0.windowInContract ∧ s1At0.slotsByteExact ∧
    1 < ([10, 20, 30, 40, 50] : List Word).length ∧ ([10, 20, 30, 40, 50] : List Word).length ≤ 1 + s1At0.regs.capacity.toNat := by
  decide

/-- FILLZ with `i` slots zeroed. -/
def filling (i : BitVec 33) : State :=
  { running 5 0 with seq := { phase := .run, i := i, word := 0, bytes := [], t0 := 0 } }

theorem witness_FillzZeroesOneSlotPerStep :
    (filling 0).mem.wf ∧ (filling 0).status.configured = true ∧ 0 < (filling 0).regs.capacity.toNat ∧
    (filling 0).seq.i.toNat + 1 ≠ (filling 0).regs.capacity.toNat ∧
    (filling 3).seq.i.toNat + 1 = (filling 3).regs.capacity.toNat ∧ (filling 3).byteExact (filling 3).bulkAddr = true := by
  decide

theorem witness_FillzZeroesTheWindow :
    (filling 0).mem.wf ∧ (filling 0).starts .fillz ∧ (filling 0).slotsByteExact ∧ (filling 0).windowInContract := by decide

theorem witness_FillzCutShortKeepsItsPrefix :
    (filling 0).mem.wf ∧ (filling 0).starts .fillz ∧ (filling 0).slotsByteExact ∧
    0 < (filling 0).regs.capacity.toNat ∧ 3 < (filling 0).regs.capacity.toNat := by decide

theorem witness_FixedTokensAreAllTheDigits : Params.default.tokenMode = .fixed := by decide

theorem witness_MinimalTokensDropLeadingZeros :
    let p := { Params.default with tokenMode := .minimal }
    p.tokenMode = .minimal ∧ (0 : Word).toNat < 2 ^ p.wordBits ∧ (0xFFFF : Word).toNat < 2 ^ p.wordBits ∧
    (0xFFFF : Word) ≠ 0 := by decide

theorem witness_DigitBytesAreUppercaseHex : 0 ≤ 9 ∧ 9 ≤ 9 ∧ 10 ≤ 10 ∧ 15 ≤ 15 := by decide

theorem witness_ExportReadsASlotThenQueuesItsToken :
    (exporting 3 [] [.accept]).status.configured = true ∧ (exporting 3 [] [.accept]).seq.bytes = [] ∧
    (exporting 3 [] [.accept]).seq.i.toNat < (exporting 3 [] [.accept]).regs.capacity.toNat ∧
    (exporting 3 [] [.accept]).inWindow (exporting 3 [] [.accept]).bulkAddr = true ∧
    (exporting 3 [] [.accept]).byteExact (exporting 3 [] [.accept]).bulkAddr = true ∧
    (oddBase 6 0).status.configured = true ∧ (oddBase 6 0).seq.bytes = [] ∧
    (oddBase 6 0).seq.i.toNat < (oddBase 6 0).regs.capacity.toNat ∧ (oddBase 6 0).inWindow (oddBase 6 0).bulkAddr = true ∧
    (oddBase 6 0).byteExact (oddBase 6 0).bulkAddr = false ∧ (noStride 6 0).inWindow (noStride 6 0).bulkAddr = false ∧
    (noStride 6 0).seq.bytes = [] ∧ (noStride 6 0).seq.i.toNat < (noStride 6 0).regs.capacity.toNat := by decide

theorem witness_ExportSendsAByteAndEndsThePass :
    (exporting 4 [0x38, 0x20] [.accept]).seq.bytes = 0x38 :: [0x20] ∧
    (exporting 3 [0x20] [.accept]).seq.bytes = 0x20 :: [] ∧
    (exporting 3 [0x20] [.accept]).seq.i.toNat ≠ (exporting 3 [0x20] [.accept]).regs.capacity.toNat ∧
    (exporting 4 [0x20] [.accept]).seq.bytes = 0x20 :: [] ∧
    (exporting 4 [0x20] [.accept]).seq.i.toNat = (exporting 4 [0x20] [.accept]).regs.capacity.toNat ∧
    (exporting 4 [0x20] [.accept]).sink.answers = .accept :: [] := by decide

theorem witness_ExportFailsAtOnce :
    (exporting 1 [0x20] [.fail]).seq.bytes = 0x20 :: [] ∧ (exporting 1 [0x20] [.fail]).sink.answers = .fail :: [] := by decide

/-- The host writes CMD while the sink is silent (V-E10). -/
def silent : State := hostIs (exporting 1 [0x30] []) { addr := 0, size := 4, kind := .write 2 }

theorem witness_SilentSinkHoldsTheExport :
    silent.awaitingSink = true ∧ silent.status.busy = true ∧ silent.turn ≠ .reset ∧ (∃ t, step silent = .next t) ∧
    (∃ w, silent.hostWrites .cmd w) :=
  ⟨by decide, by decide, by decide, ⟨_, rfl⟩, 2, by decide, _, [], rfl, by decide, rfl⟩

/-- EXPORT accepted on S1, with what the sink will answer. -/
def exportStarts (answers : List SinkAnswer) : State :=
  { running 6 0 with sink := { stream := [], answers := answers } }

/-- The sink accepts `n` bytes and fails the next. -/
def failAfter (n : Nat) : List SinkAnswer := List.replicate n SinkAnswer.accept ++ [SinkAnswer.fail]

theorem witness_ExportEmitsTheWindow :
    (exportStarts (List.replicate 20 .accept)).starts .exportText ∧
    (exportStarts (List.replicate 20 .accept)).windowInContract ∧ (exportStarts (List.replicate 20 .accept)).slotsByteExact ∧
    (exportStarts []).params.tokenMode = .fixed ∧ (exportStarts []).exportedText.length = 20 := by decide

theorem witness_FailedExportKeepsTheAcceptedPrefix :
    (exportStarts (failAfter 19)).starts .exportText ∧ (exportStarts (failAfter 19)).windowInContract ∧
    (exportStarts (failAfter 19)).slotsByteExact ∧ 0 < (exportStarts (failAfter 0)).exportedText.length ∧
    19 < (exportStarts (failAfter 19)).exportedText.length ∧
    (exportStarts (failAfter 0)).starts .exportText := by decide

theorem witness_ResetClearsTheBlock : (scheduled [.reset]).turn = .reset := by decide

/-- A completion, a host write of CMD, of STATUS, an export's end and a reset: the events of 10_state.md R34. -/
theorem witness_FlagsChangeOnlyByTheirEvents :
    (∃ t, step (running 1 1) = .next t ∧ t.status.configured = true) ∧
    (∃ t, step (exporting 4 [0x20] [.accept]) = .next t ∧ t.status.durValid = true) ∧
    (∃ t, step silent = .next t ∧ t.status.ovr = true) ∧
    (∃ t, step (scheduled [.reset]) = .next t ∧ t.status.busy = false) :=
  ⟨⟨_, rfl, by decide⟩, ⟨_, rfl, rfl⟩, ⟨_, rfl, by decide⟩, ⟨_, rfl, by decide⟩⟩

theorem witness_RegistersChangeOnlyAtCompletion :
    let s := hostIs s1 { addr := 8, size := 4, kind := .write 99 }
    ∃ t, step s = .next t ∧ s.turn ≠ .reset ∧ ¬ completesIn s t ∧ t.regs.opa ≠ s.regs.opa :=
  ⟨_, rfl, by decide, by decide, by decide⟩

theorem witness_RegistersHaveFewWriters :
    let s := running 3 1
    ∃ t, step s = .next t ∧ s.turn ≠ .reset ∧ ¬ s.runs .config ∧ ¬ s.runs .write ∧ ¬ s.runs .fillz ∧
      ¬ s.runs .exportText ∧ t.regs.result = 0x14 ∧ (running 1 0).runs .config ∧ (running 1 0).lat.a.toNat = 0 :=
  ⟨_, rfl, by decide, by decide, by decide, by decide, by decide, by decide, by decide, by decide⟩

theorem witness_MemoryAndSinkHaveFewWriters :
    let s := exporting 1 [0x20] [.accept]
    ∃ t, step s = .next t ∧ ¬ s.runs .write ∧ ¬ s.runs .fillz ∧ t.sink.stream = s.sink.stream ++ [0x20] :=
  ⟨_, rfl, by decide, by decide, by decide⟩

theorem witness_ParametersStayAndMarksStick :
    let s := { running 3 4 with marks := { cfgOutOfContract := true, oowReads := [] } }
    s.marks.cfgOutOfContract = true ∧ ∃ t, step s = .next t ∧ t.marks.oowReads = [0x1008] :=
  ⟨rfl, _, rfl, by decide⟩

theorem witness_UnusedOperandsAreIgnored :
    Instr.write ≠ .config ∧ Instr.write ≠ .fillz ∧ Instr.write ≠ .exportText ∧
    (0x12345 : Word).toNat % 2 ^ (running 2 0x2345).params.wordBits =
      (running 2 0x2345).lat.a.toNat % 2 ^ (running 2 0x2345).params.wordBits := by decide

/-- The middle of each long command meets the invariant, and steps. -/
theorem witness_StepKeepsTheInvariant :
    s1.Inv ∧ (filling 3).Inv ∧ (exporting 4 [0x20] [.accept]).Inv ∧ (running 0x12 0).Inv ∧
    (∃ t, step (filling 3) = .next t) ∧ (∃ t, step (exporting 4 [0x20] [.accept]) = .next t) :=
  ⟨by decide, by decide, by decide, by decide, ⟨_, rfl⟩, ⟨_, rfl⟩⟩

theorem witness_NoStepFaultsUnderTheInvariant :
    (exporting 3 [] []).Inv ∧
    (let s := hostIs s1 { addr := 2, size := 4, kind := .read }; s.Inv ∧ step s = .refused .hostNarrow) :=
  ⟨by decide, by decide, rfl⟩

theorem witness_RunningSequencerMoves :
    (exporting 3 [] []).Inv ∧ (exporting 3 [] []).seq.phase = .run ∧ (exporting 3 [] []).awaitingSink = false := by decide

/-- An accepted EXPORT, its end, a CONFIG and a step of FILLZ. -/
theorem witness_OnlyExportSamplesTheTick :
    (let s := hostIs s1 { addr := 0, size := 4, kind := .write 6 }
     s.turn = .host ∧ nextWith (step s) (fun t => t.draws != s.draws) = true) ∧
    (let s := { running 1 1 with regs := { s1.regs with duration := 9 } }
     s.turn ≠ .reset ∧ nextWith (step s) (fun t => t.regs.duration != s.regs.duration) = true) ∧
    ((filling 0).runs .fillz ∧ nextWith (step (filling 0)) (fun _ => true) = true) ∧
    ((exporting 4 [0x20] [.accept]).turn ≠ .reset ∧
      nextWith (step (exporting 4 [0x20] [.accept])) (fun _ => true) = true) :=
  ⟨by decide, by decide, by decide, by decide⟩

end Sys2Proof.Tests
end

section
/-! Proofs for the schedule (40_host_port.md R113; assumption log 7): a step is the turn at the head of the schedule, or the
default turn when the schedule is used up. -/

namespace Sys2Proof.Machine

theorem State.turn_of_schedule_cons {s : State} {t : Turn} {rest : List Turn} (h : s.schedule = t :: rest) :
    s.turn = t := by
  simp only [State.turn, h]

theorem State.turn_of_schedule_nil {s : State} (h : s.schedule = []) :
    s.turn = if s.seq.phase = .run ∧ s.awaitingSink = false then .sequencer else .host := by
  simp [State.turn, h]

theorem State.popTurn_of_schedule_nil {s : State} (h : s.schedule = []) : s.popTurn = s := by
  rw [State.popTurn_eq, h, List.tail_nil, ← h]

/-- The agent at the head of the schedule takes the step, from the state with that turn used up. -/
theorem step_of_schedule_cons {s : State} {t : Turn} {rest : List Turn} (h : s.schedule = t :: rest) :
    step s = ({ s with schedule := rest }).takeTurn t := by
  rw [step, State.turn_of_schedule_cons h, State.popTurn_eq, h, List.tail_cons]

/-- With no schedule the default turn is taken, and no turn is used up. -/
theorem step_of_schedule_nil {s : State} (h : s.schedule = []) :
    step s = if s.seq.phase = .run ∧ s.awaitingSink = false then s.sequencerStep else s.hostStep := by
  rw [step, State.popTurn_of_schedule_nil h, State.turn_of_schedule_nil h, apply_ite s.takeTurn]
  rfl

/-- Settles O5: each scheduled agent by `step_of_schedule_cons`, the empty schedule by `step_of_schedule_nil`. -/
theorem scheduledAgentMoves : Obligations.ScheduledAgentMoves :=
  ⟨fun _ _ => step_of_schedule_cons, fun _ _ => step_of_schedule_cons, fun _ _ => step_of_schedule_cons,
    fun _ _ => step_of_schedule_cons, fun _ => step_of_schedule_nil⟩

end Sys2Proof.Machine
end

section
/-! Proofs for STATUS and PARAMS as words (10_state.md R23, R32): each is the sum of its fields at their weights, so that
every field is a quotient and a remainder. -/

namespace Sys2Proof.Machine

/-- Appending puts the high part at the weight of the low part's width. -/
theorem toNat_append_eq_add {n m : Nat} (x : BitVec n) (y : BitVec m) : (x ++ y).toNat = x.toNat * 2 ^ m + y.toNat := by
  rw [BitVec.toNat_append, ← Nat.shiftLeft_add_eq_or_of_lt y.isLt, Nat.shiftLeft_eq]

theorem getLsbD_eq_decide (w : Word) (i : Nat) : w.getLsbD i = decide (w.toNat / 2 ^ i % 2 = 1) := by
  rw [← BitVec.testBit_toNat, Nat.testBit_eq_decide_div_mod_eq]

theorem extractLsb'_toNat_eq (w : Word) (i n : Nat) : (w.extractLsb' i n).toNat = w.toNat / 2 ^ i % 2 ^ n := by
  rw [BitVec.extractLsb'_toNat, Nat.shiftRight_eq_div_pow]

theorem extractLsb'_eq_zero_iff (w : Word) (i n : Nat) : w.extractLsb' i n = 0 ↔ w.toNat / 2 ^ i % 2 ^ n = 0 := by
  rw [← BitVec.toNat_inj, extractLsb'_toNat_eq, BitVec.ofNat_eq_ofNat, BitVec.toNat_ofNat, Nat.zero_mod]

/-! ### STATUS -/

/-- STATUS as a number: ERR from bit 8 on, then OVR, DUR_VALID, CONFIGURED and BUSY. -/
theorem statusWord_toNat (st : Status) :
    (statusWord st).toNat = 256 * (errCode st.err).toNat + 8 * st.ovr.toNat + 4 * st.durValid.toNat +
      2 * st.configured.toNat + st.busy.toNat := by
  simp only [statusWord, toNat_append_eq_add, BitVec.toNat_ofBool, BitVec.ofNat_eq_ofNat, BitVec.toNat_ofNat]
  omega

theorem decide_toNat_eq_one (b : Bool) : decide (b.toNat = 1) = b := by cases b <;> rfl

/-- Settles O11: each bit and field is read off `statusWord_toNat`. -/
theorem statusReadsItsFields : Obligations.StatusReadsItsFields := by
  intro s
  have hw : (s.hostRead .status).toNat = _ := statusWord_toNat s.status
  have hbusy := s.status.busy.toNat_lt
  have hconf := s.status.configured.toNat_lt
  have hdur := s.status.durValid.toNat_lt
  have hovr := s.status.ovr.toNat_lt
  have herr := (errCode s.status.err).isLt
  have hcode : (s.hostRead .status).toNat / 2 ^ 8 % 2 ^ 4 = (errCode s.status.err).toNat := by omega
  simp only [getLsbD_eq_decide, extractLsb'_eq_zero_iff, extractLsb'_toNat_eq, hcode]
  refine ⟨?busy, ?configured, ?durValid, ?ovr, by omega, by omega, ?err⟩
  case busy => rw [← decide_toNat_eq_one s.status.busy]; congr 2; omega
  case configured => rw [← decide_toNat_eq_one s.status.configured]; congr 2; omega
  case durValid => rw [← decide_toNat_eq_one s.status.durValid]; congr 2; omega
  case ovr => rw [← decide_toNat_eq_one s.status.ovr]; congr 2; omega
  case err => cases s.status.err <;> rfl

/-! ### PARAMS -/

/-- PARAMS as a number, for a legal TICK_BITS: REVISION, ADDR_W, TICK_BITS, TOKEN_MODE and WORD_BYTES. -/
theorem paramsWord_toNat (p : Params) (h : p.wf = true) :
    (paramsWord p).toNat = 2 ^ 24 * 1 + 2 ^ 16 * 32 + 2 ^ 8 * p.tickBits + 2 ^ 4 * (tokenModeBit p.tokenMode).toNat +
      p.wordBytes.count := by
  have hcount := p.wordBytes.count_le
  simp only [Params.wf, Bool.and_eq_true, decide_eq_true_eq] at h
  simp only [paramsWord, toNat_append_eq_add, BitVec.ofNat_eq_ofNat, BitVec.toNat_ofNat]
  omega

theorem tokenModeBit_toNat_eq_one_iff (m : TokenMode) : (tokenModeBit m).toNat = 1 ↔ m = .minimal := by
  cases m <;> decide

/-- Settles O12: each field is read off `paramsWord_toNat`; the default word and the ignored write by evaluation. -/
theorem paramsReadsItsFields : Obligations.ParamsReadsItsFields := by
  refine ⟨fun s h => ?_, fun s h => ?_, fun _ _ => rfl⟩
  · have hw : (s.hostRead .params).toNat = _ := paramsWord_toNat s.params h
    have hcount := s.params.wordBytes.count_le
    have hmode := (tokenModeBit s.params.tokenMode).isLt
    simp only [Params.wf, Bool.and_eq_true, decide_eq_true_eq] at h
    simp only [getLsbD_eq_decide, extractLsb'_eq_zero_iff, extractLsb'_toNat_eq, decide_eq_true_eq, decide_eq_false_iff_not,
      ← tokenModeBit_toNat_eq_one_iff]
    omega
  · show paramsWord s.params = _
    rw [h]
    rfl

end Sys2Proof.Machine
end

section
/-! What a step of the machine is, in the words the statements use: `StepCase` with the host's write and the running command
named by `State.hostWrites` and `State.runs`. -/

namespace Sys2Proof.Machine

/-! ### Who writes and what runs -/

theorem State.not_hostWrites {s : State} (h : s.turn ≠ .host) (r : HostReg) (d : Word) : ¬ s.hostWrites r d :=
  fun hw => h hw.1

theorem State.not_runs {s : State} (h : s.turn ≠ .sequencer) (i : Instr) : ¬ s.runs i :=
  fun hr => h hr.1

/-- A step makes at most one write. -/
theorem State.hostWrites_iff {s : State} {r : HostReg} {d : Word} (h : s.hostWrites r d) (r' : HostReg) (d' : Word) :
    s.hostWrites r' d' ↔ r = r' ∧ d = d' := by
  obtain ⟨ht, a, rest, hs, hr, hk⟩ := h
  constructor
  · rintro ⟨-, a', rest', hs', hr', hk'⟩
    obtain ⟨rfl, -⟩ : a = a' ∧ rest = rest' := by simpa using hs.symm.trans hs'
    exact ⟨Option.some.inj (hr.symm.trans hr'), AccessKind.write.inj (hk.symm.trans hk')⟩
  · rintro ⟨rfl, rfl⟩
    exact ⟨ht, a, rest, hs, hr, hk⟩

theorem State.not_hostWrites_of_script {s : State}
    (h : ∀ a rest, s.host.script = .access a :: rest → a.kind = .read) (r : HostReg) (d : Word) : ¬ s.hostWrites r d := by
  rintro ⟨-, a, rest, hs, -, hk⟩
  simp [h a rest hs] at hk

/-- A step runs at most one command. -/
theorem State.runs_iff {s : State} {i : Instr} (h : s.runs i) (j : Instr) : s.runs j ↔ i = j := by
  obtain ⟨ht, hp, hd⟩ := h
  simp [State.runs, ht, hp, hd]

/-- The next states of a step of the machine from `s`; what becomes of the host's script and reads is left open. -/
inductive MoveCase (s : State) : State → Prop
  | reset (ht : s.turn = .reset) : MoveCase s s.popTurn.applyReset
  | bringUp (ht : s.turn = .bringUp) : MoveCase s (s.popTurn.setWindowReady true)
  | hostReads (ht : s.turn = .host) (hw : ∀ r d, ¬ s.hostWrites r d) (agent : HostAgent) :
      MoveCase s (s.popTurn.setHost agent)
  | hostWrites (r : HostReg) (d : Word) (hw : s.hostWrites r d) (agent : HostAgent) :
      MoveCase s ((s.popTurn.setHost agent).hostWrite r d)
  | idle (ht : s.turn = .sequencer) (hp : s.seq.phase = .idle) : MoveCase s s.popTurn
  | illegal (ht : s.turn = .sequencer) (hp : s.seq.phase = .run) (hr : ∀ i, ¬ s.runs i) :
      MoveCase s (s.popTurn.complete .illegalCommand)
  | command (i : Instr) (hr : s.runs i) (t : State) (hc : ExecCase s.popTurn i t) : MoveCase s t

/-- A step of the host is a write, or leaves the block alone. -/
theorem hostCase_move {s t : State} (ht : s.turn = .host) (h : HostCase s.popTurn t) : MoveCase s t := by
  cases h with
  | nothing hs => exact .hostReads ht (State.not_hostWrites_of_script fun a rest h => nomatch hs.symm.trans h) s.host
  | read a rest r hs hr hk =>
    refine .hostReads ht (State.not_hostWrites_of_script fun a' rest' h => ?_) _
    obtain ⟨rfl, -⟩ : a = a' ∧ rest = rest' := by simpa using hs.symm.trans h
    exact hk
  | write a rest r d hs hr hk => exact .hostWrites r d ⟨ht, a, rest, hs, hr, hk⟩ _
  | poll rest hs => exact .hostReads ht (State.not_hostWrites_of_script fun a rest' h => nomatch hs.symm.trans h) _

/-- A step of the sequencer is none, a rejected word, or a step of one command. -/
theorem sequencerCase_move {s t : State} (ht : s.turn = .sequencer) (h : SequencerCase s.popTurn t) : MoveCase s t := by
  cases h with
  | idle hp => exact .idle ht hp
  | illegal hp why hd => exact .illegal ht hp (fun i hr => nomatch hd.symm.trans hr.2.2)
  | command hp i hd t he => exact .command i ⟨ht, hp, hd⟩ t (exec_cases he)

theorem move_cases {s t : State} (h : step s = .next t) : MoveCase s t := by
  cases step_cases h with
  | reset ht => exact .reset ht
  | bringUp ht => exact .bringUp ht
  | host ht t hc => exact hostCase_move ht hc
  | sequencer ht t hc => exact sequencerCase_move ht hc

end Sys2Proof.Machine
end

section
/-! What each kind of step does to STATUS, to the registers and to the marks: the host's write and the commands' steps, said
once for all the statements about the whole machine. -/

namespace Sys2Proof.Machine

theorem State.firstStep_iff (s : State) : s.firstStep = true ↔ s.seq.i = 0 ∧ s.seq.bytes = [] := by
  simp [State.firstStep]

/-! ### A write of the host (40_host_port.md R112, R114, R116) -/

theorem Status.hostWrite_eq (st : Status) (d : Word) : st.hostWrite d = { st with ovr := st.ovr && !d.getLsbD 3 } := by
  unfold Status.hostWrite
  split <;> simp_all

/-- STATUS after a write: a CMD write sets BUSY and clears ERR, or sets OVR while BUSY; a STATUS write with bit 3 set clears
OVR. -/
theorem State.hostWrite_status (s : State) (r : HostReg) (d : Word) :
    (s.hostWrite r d).status = { s.status with
      busy := s.status.busy || decide (r = .cmd)
      ovr := (s.status.ovr || (s.status.busy && decide (r = .cmd))) && !(decide (r = .status) && d.getLsbD 3)
      err := if s.status.busy = false ∧ r = .cmd then .ok else s.status.err } := by
  cases r
  case cmd => cases hb : s.status.busy <;> simp [State.hostWrite, State.cmdWrite, hb, State.accept_eq, Status.overrun]
  case status => simp [State.hostWrite, Status.hostWrite_eq]
  all_goals simp [State.hostWrite]

/-- The registers after a write: an operand register takes the data, and no other register changes. -/
theorem State.hostWrite_regs (s : State) (r : HostReg) (d : Word) :
    (s.hostWrite r d).regs = { s.regs with
      opa := if r = .opa then d else s.regs.opa
      opb := if r = .opb then d else s.regs.opb
      opc := if r = .opc then d else s.regs.opc } := by
  cases r
  case cmd => cases hb : s.status.busy <;> simp [State.hostWrite, State.cmdWrite, hb, State.accept_eq]
  all_goals simp [State.hostWrite]

/-- A write leaves the parameters, the memory and the marks. -/
theorem State.hostWrite_frame (s : State) (r : HostReg) (d : Word) :
    (s.hostWrite r d).params = s.params ∧ (s.hostWrite r d).mem = s.mem ∧ (s.hostWrite r d).marks = s.marks := by
  rcases s.hostWrite_cases r d with h | ⟨_, _, _, h⟩ | ⟨_, h⟩ | ⟨-, -, h⟩ <;> rw [h] <;> exact ⟨rfl, rfl, rfl⟩

/-! ### A step of a command -/

theorem toNat_ne_zero {v : Word} (h : v ≠ 0) : v.toNat ≠ 0 := BitVec.toNat_ne.mp h

/-- The commands that read a word into RESULT are none of the others. -/
theorem ne_of_reads {i : Instr} {p q r : Prop} (h : (i = .readi ∧ p) ∨ (i = .reado ∧ q) ∨ (i = .readc ∧ r)) :
    i ≠ .config ∧ i ≠ .write ∧ i ≠ .fillz ∧ i ≠ .exportText := by
  rcases h with ⟨rfl, -⟩ | ⟨rfl, -⟩ | ⟨rfl, -⟩ <;> decide

/-- A step of a command completes it, or leaves STATUS, the registers and the phase (10_state.md R37). -/
theorem ExecCase.completes_or_continues {s t : State} {i : Instr} (h : ExecCase s i t) :
    (t.seq.phase = .idle ∧ t.status.busy = false) ∨
    (t.seq.phase = s.seq.phase ∧ t.status = s.status ∧ t.regs = s.regs) := by
  cases h with
  | fills | exportReads | exportWaits | exportSends => exact .inr ⟨rfl, rfl, rfl⟩
  | rejected | configFails | configInstalls | writes | reads | outOfRange | fillsLast | exportFails | exportEnds =>
    exact .inl ⟨rfl, rfl⟩

theorem ExecCase.params_eq {s t : State} {i : Instr} (h : ExecCase s i t) : t.params = s.params := by cases h <;> rfl

theorem ExecCase.ovr_eq {s t : State} {i : Instr} (h : ExecCase s i t) : t.status.ovr = s.status.ovr := by cases h <;> rfl

/-- CONFIG alone writes CONFIGURED. -/
theorem ExecCase.configured_iff {s t : State} {i : Instr} (h : ExecCase s i t) :
    t.status.configured = true ↔
      (i = .config ∧ s.lat.a.toNat ≠ 0) ∨ (s.status.configured = true ∧ ¬ (i = .config ∧ s.lat.a.toNat = 0)) := by
  cases h with
  | rejected _ hi => simp [hi]
  | reads _ _ _ hr => simp [(ne_of_reads hr).1]
  | configFails ha => simp [ha]
  | configInstalls ha => simp [toNat_ne_zero ha]
  | writes | outOfRange | fills | fillsLast | exportReads | exportWaits | exportFails | exportSends | exportEnds => simp

/-- The sink accepts the last byte of the last slot's text (43_bulk.md R175): `State.exportEnds` without its turn. -/
def State.lastByteAccepted (s : State) : Prop :=
  s.seq.i.toNat = s.regs.capacity.toNat ∧ ∃ b answers, s.seq.bytes = [b] ∧ s.sink.answers = .accept :: answers

theorem State.exportEnds_iff (s : State) : s.exportEnds ↔ s.runs .exportText ∧ s.lastByteAccepted := Iff.rfl

/-- DUR_VALID is set with the last byte of an EXPORT and cleared by a successful CONFIG. -/
theorem ExecCase.durValid_iff {s t : State} {i : Instr} (h : ExecCase s i t) :
    t.status.durValid = true ↔
      (i = .exportText ∧ s.lastByteAccepted) ∨
      (s.status.durValid = true ∧ ¬ (i = .config ∧ s.lat.a.toNat ≠ 0)) := by
  unfold State.lastByteAccepted
  cases h with
  | rejected _ hi _ hf =>
    have hb : i = .exportText → s.seq.bytes = [] := fun he => (s.firstStep_iff.mp (hf (.inr he))).2
    simp +contextual [hi, hb]
  | reads _ _ _ hr => simp [ne_of_reads hr]
  | configFails ha => simp [ha]
  | configInstalls ha => simp [toNat_ne_zero ha]
  | exportReads _ hb => simp [hb]
  | exportWaits _ _ _ ha | exportFails _ _ _ _ ha => simp [ha]
  | exportSends b rest answers hb ha hl =>
    have : s.seq.i.toNat = s.regs.capacity.toNat → rest ≠ [] := fun hi hr => hl ⟨hr, hi⟩
    simp +contextual [hb, this]
  | exportEnds b answers hb ha hi => simp [hb, ha, hi]
  | writes | outOfRange | fills | fillsLast => simp

end Sys2Proof.Machine
end

section
/-! The flags of STATUS (10_state.md R34): for each, its events, from what each kind of step does. -/

namespace Sys2Proof.Machine

theorem step_busy_iff {s t : State} (h : step s = .next t) :
    t.status.busy = true ↔
      (∃ w, s.hostWrites .cmd w) ∨ (s.status.busy = true ∧ s.turn ≠ .reset ∧ ¬ completesIn s t) := by
  cases move_cases h with
  | reset ht => simp [ht, State.not_hostWrites, State.applyReset_eq, State.reset]
  | bringUp ht => simp [ht, State.not_hostWrites]
  | hostReads ht hw => simp [ht, hw]
  | hostWrites r d hw => simp [hw.1, State.hostWrites_iff hw, State.hostWrite_status, or_comm]
  | idle ht hp => simp [ht, hp, State.not_hostWrites]
  | illegal ht hp => simp [ht, hp, State.not_hostWrites]
  | command i hr _ hc =>
    obtain ⟨ht, hp, -⟩ := hr
    rcases hc.completes_or_continues with ⟨hi, hb⟩ | ⟨hi, hs, -⟩
    · simp [ht, hp, hi, hb, State.not_hostWrites]
    · simp [ht, hp, hi, hs, State.not_hostWrites]

theorem step_configured_iff {s t : State} (h : step s = .next t) :
    t.status.configured = true ↔
      (s.runs .config ∧ s.lat.a.toNat ≠ 0) ∨
      (s.status.configured = true ∧ s.turn ≠ .reset ∧ ¬ (s.runs .config ∧ s.lat.a.toNat = 0)) := by
  cases move_cases h with
  | reset ht => simp [ht, State.applyReset_eq, State.reset]
  | bringUp ht => simp [ht]
  | hostReads ht => simp [ht]
  | hostWrites r d hw => simp [hw.1, State.hostWrite_status]
  | idle ht hp => simp [ht, hp]
  | illegal ht hp hn => simp [ht, hn]
  | command i hr _ hc => simpa [hr.1, State.runs_iff hr] using hc.configured_iff

theorem step_durValid_iff {s t : State} (h : step s = .next t) :
    t.status.durValid = true ↔
      s.exportEnds ∨ (s.status.durValid = true ∧ s.turn ≠ .reset ∧ ¬ (s.runs .config ∧ s.lat.a.toNat ≠ 0)) := by
  rw [State.exportEnds_iff]
  cases move_cases h with
  | reset ht => simp [ht, State.applyReset_eq, State.reset]
  | bringUp ht => simp [ht]
  | hostReads ht => simp [ht]
  | hostWrites r d hw => simp [hw.1, State.hostWrite_status]
  | idle ht hp => simp [ht, hp]
  | illegal ht hp hn => simp [ht, hn]
  | command i hr _ hc => simpa [hr.1, State.runs_iff hr, State.lastByteAccepted] using hc.durValid_iff

theorem step_ovr_iff {s t : State} (h : step s = .next t) :
    t.status.ovr = true ↔
      (s.status.busy = true ∧ ∃ w, s.hostWrites .cmd w) ∨
      (s.status.ovr = true ∧ s.turn ≠ .reset ∧ ¬ ∃ d, s.hostWrites .status d ∧ d.getLsbD 3 = true) := by
  cases move_cases h with
  | reset ht => simp [ht, State.not_hostWrites, State.applyReset_eq, State.reset]
  | bringUp ht => simp [ht, State.not_hostWrites]
  | hostReads ht hw => simp [ht, hw]
  | hostWrites r d hw =>
    by_cases hs : r = .status
    · subst hs
      simp [hw.1, State.hostWrites_iff hw, State.hostWrite_status]
    · simp [hw.1, State.hostWrites_iff hw, State.hostWrite_status, hs, or_comm]
  | idle ht => simp [ht, State.not_hostWrites]
  | illegal ht => simp [ht, State.not_hostWrites]
  | command i hr _ hc => simp [hr.1, hc.ovr_eq, State.not_hostWrites]

/-- Settles O47: each flag by its own lemma. -/
theorem flagsChangeOnlyByTheirEvents : Obligations.FlagsChangeOnlyByTheirEvents := fun _ _ h =>
  ⟨step_busy_iff h, step_configured_iff h, step_durValid_iff h, step_ovr_iff h⟩

end Sys2Proof.Machine
end

section
/-! The registers, the parameters and the marks (10_state.md R36, R37, R41; 20_memory.md R68): what any step can change. -/

namespace Sys2Proof.Machine

/-! ### A step of a command -/

/-- A read records no event inside the window, and one outside. -/
theorem State.memRead_oowReads (s : State) (a : Word) :
    (s.memRead a).2.marks.oowReads = s.marks.oowReads ∨
    ∃ b, (s.memRead a).2.marks.oowReads = s.marks.oowReads ++ [b] ∧ s.inWindow b = false := by
  rcases s.memRead_cases a with ⟨-, -, h⟩ | ⟨-, -, h⟩ | ⟨hw, h⟩ <;> rw [h]
  · exact .inl rfl
  · exact .inl rfl
  · exact .inr ⟨a, rfl, hw⟩

/-- A step of a command records no event, or one for a read outside the window; and the mark sticks. -/
theorem ExecCase.marks_grow {s t : State} {i : Instr} (h : ExecCase s i t) :
    (s.marks.cfgOutOfContract = true → t.marks.cfgOutOfContract = true) ∧
    (t.marks.oowReads = s.marks.oowReads ∨ ∃ a, t.marks.oowReads = s.marks.oowReads ++ [a] ∧ s.inWindow a = false) := by
  cases h with
  | configInstalls => exact ⟨fun hm => by simp [hm], .inl rfl⟩
  | reads _ a => exact ⟨fun hm => (s.memRead_cfgOutOfContract a).trans hm, s.memRead_oowReads a⟩
  | exportReads => exact ⟨fun hm => (s.memRead_cfgOutOfContract _).trans hm, s.memRead_oowReads _⟩
  | rejected | configFails | writes | outOfRange | fills | fillsLast | exportWaits | exportFails | exportSends
  | exportEnds => exact ⟨id, .inl rfl⟩

/-- The registers after a step of a command: each has its writers, and CONFIG with capacity 0 writes none. -/
theorem ExecCase.regs_writers {s t : State} {i : Instr} (h : ExecCase s i t) :
    (i ≠ .config →
      t.regs.capacity = s.regs.capacity ∧ t.regs.base = s.regs.base ∧ t.regs.increment = s.regs.increment) ∧
    (i ≠ .config → i ≠ .write → i ≠ .fillz → i ≠ .exportText → t.regs.cursor = s.regs.cursor) ∧
    (i ≠ .readi → i ≠ .reado → i ≠ .readc → t.regs.result = s.regs.result) ∧
    (i ≠ .config → ¬ (i = .exportText ∧ s.lastByteAccepted) → t.regs.duration = s.regs.duration) ∧
    (i = .config → s.lat.a.toNat = 0 → t.regs = s.regs) := by
  cases h with
  | reads _ _ _ hr => rcases hr with ⟨rfl, -⟩ | ⟨rfl, -⟩ | ⟨rfl, -⟩ <;> simp
  | configInstalls ha => simp [toNat_ne_zero ha]
  | exportEnds b answers hb ha hi =>
    have hl : s.lastByteAccepted := ⟨hi, b, answers, hb, ha⟩
    simp [hl]
  | rejected | configFails | writes | outOfRange | fills | fillsLast | exportReads | exportWaits | exportFails
  | exportSends => simp

/-! ### A step of the machine -/

/-- An operand register that a write changed is the one written, and holds the data. -/
theorem written_of_ite_ne {p : Prop} [Decidable p] {d x : Word} (h : (if p then d else x) ≠ x) :
    ∃ d', (p ∧ d = d') ∧ (if p then d else x) = d' := by
  obtain ⟨hp, -⟩ := ite_ne_right_iff.mp h
  exact ⟨d, ⟨hp, rfl⟩, if_pos hp⟩

/-- Settles O51: only CONFIG writes the mark and only a read adds an event (`ExecCase.marks_grow`); the other steps leave both. -/
theorem parametersStayAndMarksStick : Obligations.ParametersStayAndMarksStick := by
  intro s t h
  cases move_cases h with
  | hostWrites r d _ agent =>
    obtain ⟨hp, -, hm⟩ := (s.popTurn.setHost agent).hostWrite_frame r d
    rw [hp, hm]
    exact ⟨rfl, id, .inl rfl⟩
  | command i _ _ hc => exact ⟨hc.params_eq, hc.marks_grow⟩
  | reset | bringUp | hostReads | idle | illegal => exact ⟨rfl, id, .inl rfl⟩

/-- Settles O49: the host writes operands alone (`State.hostWrite_regs`), and a command as `ExecCase.regs_writers` says. -/
theorem registersHaveFewWriters : Obligations.RegistersHaveFewWriters := by
  intro s t h hreset
  rw [State.exportEnds_iff]
  cases move_cases h with
  | reset ht => exact absurd ht hreset
  | hostWrites r d hw agent => simp [State.hostWrite_regs, State.not_runs, hw.1]
  | command i hr _ hc => simpa [State.runs_iff hr, State.lastByteAccepted] using hc.regs_writers
  | bringUp | hostReads | idle | illegal => simp

/-- Settles O48: a step of a command completes it or leaves the registers (`ExecCase.completes_or_continues`), so what is left
is the host's write. -/
theorem registersChangeOnlyAtCompletion : Obligations.RegistersChangeOnlyAtCompletion := by
  intro s t h hreset hcompletes
  cases move_cases h with
  | reset ht => exact absurd ht hreset
  | hostWrites r d hw agent =>
    rw [((s.popTurn.setHost agent).hostWrite_frame r d).1, State.hostWrite_regs, State.hostWrite_status]
    simp only [State.hostWrites_iff hw]
    refine ⟨rfl, rfl, rfl, rfl, ?accepts, ?keepsErr, written_of_ite_ne, written_of_ite_ne, written_of_ite_ne⟩
    case accepts =>
      rintro ⟨hb, _, rfl, -⟩
      exact if_pos ⟨hb, rfl⟩
    case keepsErr =>
      intro hk
      refine if_neg fun ⟨hb, hr⟩ => ?_
      rcases hk with hb' | hr'
      · exact absurd (hb.symm.trans hb') (by decide)
      · exact hr' ⟨d, hr, rfl⟩
  | illegal ht hp => exact absurd ⟨ht, hp, rfl⟩ hcompletes
  | command i hr _ hc =>
    obtain ⟨ht, hp, -⟩ := hr
    rcases hc.completes_or_continues with ⟨hi, -⟩ | ⟨-, hs, hregs⟩
    · exact absurd ⟨ht, hp, hi⟩ hcompletes
    · simp [hc.params_eq, hs, hregs, State.not_hostWrites, ht]
  | bringUp ht | idle ht => simp [State.not_hostWrites, ht]
  | hostReads ht hw => simp [hw]

end Sys2Proof.Machine
end

section
/-! The invariant, in two halves that are kept for different reasons: the data (10_state.md R24, R28, R30, R40) by what each
operation writes, and the control (40_host_port.md R117; 43_bulk.md R170, R175) by completion and by the bulk commands' own
tests. -/

namespace Sys2Proof.Machine

/-- The clauses of `State.Inv` about what the block holds. -/
structure State.DataInv (s : State) : Prop where
  params : s.params.wf = true
  mem : s.mem.wf
  result : s.regs.result.toNat < 2 ^ s.params.wordBits
  duration : s.regs.duration.toNat < 2 ^ s.params.tickBits
  word : s.seq.word.toNat < 2 ^ s.params.wordBits
  t0 : s.seq.t0.toNat < 2 ^ s.params.tickBits
  cursor : s.status.configured = true → s.regs.cursor.toNat < s.regs.capacity.toNat
  window : s.status.configured = true → s.marks.cfgOutOfContract = false → s.windowInContract

/-- The clauses of `State.Inv` about where the running command is. -/
structure State.ControlInv (s : State) : Prop where
  idle_iff : s.seq.phase = .idle ↔ s.status.busy = false
  err : s.status.busy = true → s.status.err = .ok
  run : s.seq.phase = .run → s.runInRange

theorem State.inv_iff (s : State) : s.Inv ↔ s.DataInv ∧ s.ControlInv :=
  ⟨fun ⟨hp, hm, ⟨hr, hd, hw, ht⟩, hi, he, hc, hx, hrun⟩ => ⟨⟨hp, hm, hr, hd, hw, ht, hc, hx⟩, ⟨hi, he, hrun⟩⟩,
    fun ⟨⟨hp, hm, hr, hd, hw, ht, hc, hx⟩, ⟨hi, he, hrun⟩⟩ => ⟨hp, hm, ⟨hr, hd, hw, ht⟩, hi, he, hc, hx, hrun⟩⟩

/-! ### Reset -/

theorem State.applyReset_inv {s : State} (hp : s.params.wf = true) (hm : s.mem.wf) : s.applyReset.Inv := by
  have hpos (n : Nat) : (0 : Word).toNat < 2 ^ n := Nat.two_pow_pos n
  rw [State.inv_iff]
  exact ⟨⟨hp, hm, hpos _, hpos _, hpos _, hpos _, nofun, nofun⟩, ⟨⟨fun _ => rfl, fun _ => rfl⟩, nofun, nofun⟩⟩

/-- Settles O56: the state after reset is its own reset. -/
theorem resetMeetsTheInvariant : Obligations.ResetMeetsTheInvariant :=
  State.applyReset_inv (s := State.reset) (by decide) (by decide)

/-! ### A write of the host -/

theorem State.DataInv.hostWrite {s : State} (hs : s.DataInv) (r : HostReg) (d : Word) : (s.hostWrite r d).DataInv := by
  rcases s.hostWrite_cases r d with h | ⟨_, _, _, h⟩ | ⟨_, h⟩ | ⟨-, -, h⟩ <;> rw [h]
  · exact hs
  · exact { hs with }
  · exact { hs with }
  · exact { hs with word := Nat.two_pow_pos _, t0 := s.tickAtAccept_lt d hs.t0 }

theorem State.ControlInv.hostWrite {s : State} (hs : s.ControlInv) (r : HostReg) (d : Word) :
    (s.hostWrite r d).ControlInv := by
  rcases s.hostWrite_cases r d with h | ⟨_, _, _, h⟩ | ⟨_, h⟩ | ⟨-, -, h⟩ <;> rw [h]
  · exact hs
  · exact { hs with }
  · exact { hs with }
  · exact ⟨⟨nofun, nofun⟩, fun _ => rfl, fun _ => .inl rfl⟩

/-! ### A step of a command -/

/-- The cursor after a WRITE stays below CAPACITY. -/
theorem State.nextCursor_lt {s : State} (h : s.regs.cursor.toNat < s.regs.capacity.toNat) :
    s.nextCursor.toNat < s.regs.capacity.toNat := by
  have := s.regs.capacity.isLt
  unfold State.nextCursor
  split
  · simp; omega
  · rw [BitVec.toNat_ofNat]; omega

theorem ExecCase.keeps_dataInv {s t : State} {i : Instr} (h : ExecCase s i t) (hs : s.DataInv) : t.DataInv := by
  have hpos : s.status.configured = true → (0 : Word).toNat < s.regs.capacity.toNat :=
    fun hc => Nat.zero_lt_of_lt (hs.cursor hc)
  cases h with
  | rejected | outOfRange | exportWaits | exportFails | exportSends => exact { hs with }
  | configFails => exact { hs with cursor := nofun, window := nofun }
  | configInstalls ha =>
    exact { hs with
      duration := Nat.two_pow_pos _
      cursor := fun _ => Nat.pos_of_ne_zero (toNat_ne_zero ha)
      window := fun _ hm => Bool.not_inj (y := true) (Bool.or_eq_false_iff.mp hm).2 }
  | writes => exact { hs with mem := s.memWrite_wf hs.mem _ _, cursor := fun hc => State.nextCursor_lt (hs.cursor hc) }
  | reads _ a =>
    exact { hs with
      result := s.memRead_lt a
      window := fun hc hm => hs.window hc ((s.memRead_cfgOutOfContract a).symm.trans hm) }
  | fills => exact { hs with mem := s.memWrite_wf hs.mem _ _ }
  | fillsLast => exact { hs with mem := s.memWrite_wf hs.mem _ _, cursor := hpos }
  | exportReads =>
    exact { hs with
      word := s.memRead_lt _
      window := fun hc hm => hs.window hc ((s.memRead_cfgOutOfContract _).symm.trans hm) }
  | exportEnds => exact { hs with duration := truncTo_lt _ _, cursor := hpos }

/-- After a completion the control clauses hold whatever the command was. -/
theorem State.ControlInv.of_completed {s : State} (hp : s.seq.phase = .idle) (hb : s.status.busy = false) :
    s.ControlInv :=
  ⟨by simp [hp, hb], by simp [hb], by simp [hp]⟩

/-- The check of the first step is passed exactly when a command not begun finds CONFIGURED set. -/
theorem State.rejectedAtStart_eq_false_iff (s : State) :
    s.rejectedAtStart = false ↔ (s.firstStep = true → s.status.configured = true) := by
  simp [State.rejectedAtStart]

/-- Where a running FILLZ is: at a slot. -/
theorem State.fillz_inRange {s : State} (hs : s.DataInv) (hrun : s.runInRange) (hd : decode s.lat.op = .command .fillz)
    (hr : s.rejectedAtStart = false) : s.status.configured = true ∧ s.seq.i.toNat < s.regs.capacity.toNat := by
  rcases hrun with hf | ⟨hc, ⟨-, hi⟩ | ⟨hd', -⟩⟩
  · have hc := s.rejectedAtStart_eq_false_iff.mp hr hf
    rw [(s.firstStep_iff.mp hf).1]
    exact ⟨hc, Nat.zero_lt_of_lt (hs.cursor hc)⟩
  · exact ⟨hc, hi⟩
  · simp [hd] at hd'

/-- Where a running EXPORT is: at a slot, or past the last one with bytes to send. -/
theorem State.exportText_inRange {s : State} (hs : s.DataInv) (hrun : s.runInRange)
    (hd : decode s.lat.op = .command .exportText) (hr : s.rejectedAtStart = false) :
    s.status.configured = true ∧ s.seq.i.toNat ≤ s.regs.capacity.toNat ∧
      (s.seq.bytes = [] → s.seq.i.toNat < s.regs.capacity.toNat) := by
  rcases hrun with hf | ⟨hc, ⟨hd', -⟩ | ⟨-, hi⟩⟩
  · have hc := s.rejectedAtStart_eq_false_iff.mp hr hf
    rw [(s.firstStep_iff.mp hf).1]
    exact ⟨hc, Nat.zero_le _, fun _ => Nat.zero_lt_of_lt (hs.cursor hc)⟩
  · simp [hd] at hd'
  · exact ⟨hc, hi⟩

/-- The next slot's number does not wrap. -/
theorem succ_toNat_of_lt {i : BitVec 33} {c : Word} (h : i.toNat < c.toNat) : (i + 1).toNat = i.toNat + 1 := by
  bv_omega

theorem tokenText_ne_nil (p : Params) (v : Word) : tokenText p v ≠ [] := by simp [tokenText]

theorem ExecCase.keeps_controlInv {s t : State} {i : Instr} (h : ExecCase s i t) (hs : s.DataInv) (hc : s.ControlInv)
    (hp : s.seq.phase = .run) (hd : decode s.lat.op = .command i) : t.ControlInv := by
  have hrun := hc.run hp
  cases h with
  | fills hr hl =>
    obtain ⟨hconf, hi⟩ := State.fillz_inRange hs hrun hd hr
    have hlt : (s.seq.i + 1).toNat < s.regs.capacity.toNat := lt_of_le_of_ne ((succ_toNat_of_lt hi).trans_le hi) hl
    exact { hc with run := fun _ => .inr ⟨hconf, .inl ⟨hd, hlt⟩⟩ }
  | exportReads hr hb hi =>
    obtain ⟨hconf, -⟩ := State.exportText_inRange hs hrun hd hr
    have hle : (s.seq.i + 1).toNat ≤ s.regs.capacity.toNat := (succ_toNat_of_lt hi).trans_le hi
    exact { hc with run := fun _ => .inr ⟨hconf, .inr ⟨hd, hle, fun h => absurd h (tokenText_ne_nil _ _)⟩⟩ }
  | exportWaits => exact hc
  | exportSends b rest answers hb ha hl =>
    have hr : s.rejectedAtStart = false :=
      s.rejectedAtStart_eq_false_iff.mpr fun hf => by simp [(s.firstStep_iff.mp hf).2] at hb
    obtain ⟨hconf, hi, -⟩ := State.exportText_inRange hs hrun hd hr
    exact { hc with run := fun _ => .inr ⟨hconf, .inr ⟨hd, hi, fun h => lt_of_le_of_ne hi fun he => hl ⟨h, he⟩⟩⟩ }
  | rejected | configFails | configInstalls | writes | reads | outOfRange | fillsLast | exportFails | exportEnds =>
    exact .of_completed rfl rfl

/-! ### A step of the machine -/

/-- Settles O57: by cases on who moves, the two halves of the invariant apart. -/
theorem stepKeepsTheInvariant : Obligations.StepKeepsTheInvariant := by
  intro s t hinv h
  obtain ⟨hs, hc⟩ := s.popTurn.inv_iff.mp hinv
  cases move_cases h with
  | reset => exact State.applyReset_inv hs.params hs.mem
  | bringUp | hostReads | idle => exact hinv
  | hostWrites r d _ agent =>
    obtain ⟨hs', hc'⟩ := (s.popTurn.setHost agent).inv_iff.mp hinv
    exact (State.inv_iff _).mpr ⟨hs'.hostWrite r d, hc'.hostWrite r d⟩
  | illegal => exact (State.inv_iff _).mpr ⟨{ hs with }, .of_completed rfl rfl⟩
  | command i hr _ he =>
    obtain ⟨-, hp, hd⟩ := hr
    exact (State.inv_iff _).mpr ⟨he.keeps_dataInv hs, he.keeps_controlInv hs hc hp hd⟩

end Sys2Proof.Machine
end

section
/-! Proofs for the addresses and the window (20_memory.md R70 to R76): where the slots lie, and that slots a multiple of
INCREMENT apart share no byte, also when an address wraps. -/

namespace Sys2Proof.Machine

theorem State.addrOf_toNat (s : State) (i : Nat) :
    (s.addrOf i).toNat = (s.regs.base.toNat + s.regs.increment.toNat * i) % 2 ^ 32 :=
  BitVec.toNat_ofNat _ _

/-- Settles O21: `State.addrOf_toNat`, and each command's address by its definition. -/
theorem addressesAreTranslatedModulo : Obligations.AddressesAreTranslatedModulo := fun s =>
  ⟨s.addrOf_toNat, rfl, rfl, rfl, BitVec.toNat_add _ _⟩

/-! ### Inside the window -/

/-- Settles O22: a slot begins at or after BASE without wrapping, and its end is not past the window's. -/
theorem slotsLieInsideTheWindow : Obligations.SlotsLieInsideTheWindow := by
  intro s i hw hi
  have haddr := s.addrOf_toNat_of_inContract hw hi
  have hend := s.slotEnd_le hw hi
  exact bytesInWindow_of_le _ _ (s.windowInContract_iff.mp hw).2 _ _ (by omega) (by omega)

/-! ### No overlap -/

/-- The distance of two slots is the exact multiple of INCREMENT, wherever BASE puts them. -/
theorem State.addrOf_sub_toNat (s : State) {i j : Nat} (hij : i ≤ j) (hj : s.regs.increment.toNat * j < 2 ^ 32) :
    (s.addrOf j - s.addrOf i).toNat = s.regs.increment.toNat * (j - i) := by
  have hle : s.regs.increment.toNat * i ≤ s.regs.increment.toNat * j := Nat.mul_le_mul_left _ hij
  rw [BitVec.toNat_sub, s.addrOf_toNat, s.addrOf_toNat, Nat.mul_sub]
  omega

/-- Two runs of `n` bytes are disjoint when each begins at least `n` bytes after the other, mod 2^32. -/
theorem not_inBytes_of_apart {a b x : Word} {n : Nat} (hab : n ≤ (b - a).toNat) (hba : (b - a).toNat + n ≤ 2 ^ 32)
    (ha : inBytes a n x) : ¬ inBytes b n x := by
  unfold inBytes at *
  bv_omega

/-- The slot of a later index shares no byte with an earlier one's, up to the last index whose slot ends by a multiple of
INCREMENT not past 2^32. -/
theorem State.slots_disjoint (s : State) {i j : Nat} {x : Word} (hinc : s.wordBytes ≤ s.regs.increment.toNat)
    (hij : i < j) (hj : j < 2 ^ 32 / s.regs.increment.toNat) (hi : inBytes (s.addrOf i) s.wordBytes x) :
    ¬ inBytes (s.addrOf j) s.wordBytes x := by
  have hpos : 0 < s.regs.increment.toNat := s.wordBytes_pos.trans_le hinc
  have hlast : s.regs.increment.toNat * j + s.regs.increment.toNat ≤ 2 ^ 32 := by
    rw [← Nat.mul_succ, Nat.mul_comm]
    exact (Nat.le_div_iff_mul_le hpos).mp hj
  have hdist := s.addrOf_sub_toNat hij.le (by omega)
  have hlow : s.regs.increment.toNat ≤ s.regs.increment.toNat * (j - i) := Nat.le_mul_of_pos_right _ (by omega)
  have hhigh : s.regs.increment.toNat * (j - i) ≤ s.regs.increment.toNat * j := Nat.mul_le_mul_left _ (Nat.sub_le _ _)
  exact not_inBytes_of_apart (by omega) (by omega) hi

/-- Settles O23: of two distinct indices one is the later, and `State.slots_disjoint` holds of it; the window of an in-contract
configuration has room for CAPACITY multiples of INCREMENT. -/
theorem slotsDoNotOverlap : Obligations.SlotsDoNotOverlap := by
  refine ⟨fun s i j x hinc hi hj hxi hxj => ?_, fun s i hw hi => ?_⟩
  · rcases Nat.lt_trichotomy i j with hij | hij | hij
    · exact absurd hxj (s.slots_disjoint hinc hij hj hxi)
    · exact hij
    · exact absurd hxi (s.slots_disjoint hinc hij hi hxj)
  · obtain ⟨hinc, hend⟩ := s.windowInContract_iff.mp hw
    have hpos : 0 < s.regs.increment.toNat := s.wordBytes_pos.trans_le hinc
    refine ⟨hinc, (Nat.le_div_iff_mul_le hpos).mpr ?_⟩
    calc (i + 1) * s.regs.increment.toNat ≤ s.regs.capacity.toNat * s.regs.increment.toNat := Nat.mul_le_mul_right _ hi
      _ = s.regs.increment.toNat * s.regs.capacity.toNat := Nat.mul_comm _ _
      _ ≤ s.windowEnd := Nat.le_add_left _ _
      _ ≤ 2 ^ 32 := hend

end Sys2Proof.Machine
end

section
/-! Proofs for the word reads (20_memory.md R62, R66, R68; 42_word_access.md R145 to R152, R160): READI, READO and READC in
range are one read into RESULT, and the three statements are the three things a read can be. -/

namespace Sys2Proof.Machine

/-! ### The three reads -/

theorem State.memRead_of_byteExact {s : State} {a : Word} (hw : s.inWindow a = true) (he : s.byteExact a = true) :
    s.memRead a = (BitVec.ofNat 32 (s.mem.load a s.wordBytes), s) := by
  simp only [State.memRead, hw, he, if_true]

theorem State.memRead_of_misaligned {s : State} {a : Word} (hw : s.inWindow a = true) (he : s.byteExact a = false) :
    s.memRead a = s.drawWord := by
  simp only [State.memRead, hw, he, if_true, Bool.false_eq_true, if_false]

theorem State.memRead_of_outside {s : State} {a : Word} (hw : s.inWindow a = false) :
    s.memRead a = (s.setMarks { s.marks with oowReads := s.marks.oowReads ++ [a] }).drawWord := by
  simp only [State.memRead, hw, Bool.false_eq_true, if_false]

/-- A byte of the access below BASE or past the window's end puts it outside the window. -/
theorem State.inWindow_eq_false {s : State} {a : Word} {k : Nat} (hk : k < s.wordBytes)
    (h : (a + BitVec.ofNat 32 k).toNat < s.regs.base.toNat ∨ s.windowEnd ≤ (a + BitVec.ofNat 32 k).toNat) :
    s.inWindow a = false := by
  refine bytesInWindow_eq_false _ _ _ _ ⟨k, hk, ?_⟩
  simp only [byteInWindow, Bool.and_eq_false_iff, decide_eq_false_iff_not]
  omega

theorem State.byteExact_eq_false {s : State} {a : Word} (hm : s.params.misalignedMode = .openDraw)
    (ha : a.toNat % s.wordBytes ≠ 0) : s.byteExact a = false := by
  simp [State.byteExact, State.aligned, hm, ha]

/-! ### The commands -/

/-- With CONFIGURED set, READI, READO and a READC in range read the word at their address into RESULT. -/
theorem exec_eq_readInto {s : State} {i : Instr} {a : Word} (hc : s.status.configured = true)
    (h : (i = .readi ∧ a = s.indexAddr) ∨ (i = .reado ∧ a = s.offsetAddr) ∨
      (i = .readc ∧ a = s.indexAddr ∧ s.lat.a.toNat < s.regs.capacity.toNat)) :
    exec i s = .next (s.readInto a) := by
  rcases h with ⟨rfl, rfl⟩ | ⟨rfl, rfl⟩ | ⟨rfl, rfl, hr⟩
  · exact congrArg _ (if_pos hc)
  · exact congrArg _ (if_pos hc)
  · have hin : s.indexInRange = true := decide_eq_true hr
    exact congrArg _ ((if_pos hc).trans (if_pos hin))

/-- Settles O25: the word of a byte-exact read inside the window is the sum of its bytes (`Memory.load_eq_sum`). -/
theorem readsReturnTheWordInTheWindow : Obligations.ReadsReturnTheWordInTheWindow := by
  intro s i a hc hi hw he
  rw [exec_eq_readInto hc hi, s.readInto_eq, State.memRead_of_byteExact hw he, s.mem.load_eq_sum]
  rfl

/-- Settles O26: one byte outside puts the access outside the window, where a read is a draw with the event. -/
theorem readsOutsideTheWindowAreDrawn : Obligations.ReadsOutsideTheWindowAreDrawn := by
  rintro s i a hc hi ⟨k, hk, hout⟩
  have hw : s.inWindow a = false := State.inWindow_eq_false hk hout
  refine ⟨(s.memRead a).1, s.memRead_lt a, ?_⟩
  rw [exec_eq_readInto hc hi, s.readInto_eq, State.memRead_of_outside hw]
  rfl

/-- Settles O27: under `OPEN` a misaligned access is not byte-exact, and inside the window its read is a draw with no event. -/
theorem misalignedReadsAreDrawnUnderOpen : Obligations.MisalignedReadsAreDrawnUnderOpen := by
  intro s i a hc hi hw hm ha
  have he : s.byteExact a = false := State.byteExact_eq_false hm ha
  refine ⟨(s.memRead a).1, s.memRead_lt a, ?_⟩
  rw [exec_eq_readInto hc hi, s.readInto_eq, State.memRead_of_misaligned hw he]
  rfl

/-! ### A read after a write -/

/-- A byte-exact write stores the word's bytes and takes no draw. -/
theorem State.memWrite_of_byteExact {s : State} {a : Word} (he : s.byteExact a = true) (v : Word) :
    s.memWrite a v = s.setMem (s.mem.store a s.wordBytes v.toNat) :=
  if_pos he

/-- With CONFIGURED set, WRITE writes at the cursor's slot and advances the cursor. -/
theorem exec_write_eq {s : State} (hc : s.status.configured = true) :
    exec .write s = .next { s with
      mem := (s.memWrite s.writeAddr s.writeValue).mem
      draws := (s.memWrite s.writeAddr s.writeValue).draws
      regs := { s.regs with cursor := s.nextCursor }
      status := { s.status with busy := false, err := .ok }
      seq := { s.seq with phase := .idle } } := by
  refine congrArg _ ((if_pos hc).trans ?_)
  rw [s.memWrite_frame]
  rfl

/-! A called command sees the memory and the window as they were. -/

@[simp] theorem State.called_mem (s : State) (w a : Word) : (s.called w a).mem = s.mem := rfl
@[simp] theorem State.called_wordBytes (s : State) (w a : Word) : (s.called w a).wordBytes = s.wordBytes := rfl
@[simp] theorem State.called_inWindow (s : State) (w a x : Word) : (s.called w a).inWindow x = s.inWindow x := rfl
@[simp] theorem State.called_byteExact (s : State) (w a x : Word) : (s.called w a).byteExact x = s.byteExact x := rfl
@[simp] theorem State.called_writeAddr (s : State) (w a : Word) : (s.called w a).writeAddr = s.writeAddr := rfl
@[simp] theorem State.called_indexAddr (s : State) (w a : Word) : (s.called w a).indexAddr = s.addrOf a.toNat := rfl
@[simp] theorem State.called_writeValue (s : State) (w a : Word) :
    (s.called w a).writeValue = truncTo s.params.wordBits a := rfl

/-- A called WRITE to a byte-exact slot stores the truncated operand there, and leaves the window. -/
theorem State.call_write {s : State} (hc : s.status.configured = true) (hb : s.status.busy = false)
    (he : s.byteExact s.writeAddr = true) (v : Word) :
    ∃ t, s.call (encode .write) v = .next t ∧
      t.mem = s.mem.store s.writeAddr s.wordBytes (truncTo s.params.wordBits v).toNat ∧
      t.params = s.params ∧ t.status.configured = true ∧ t.status.busy = false ∧
      t.regs = { s.regs with opa := v, cursor := s.nextCursor } := by
  refine ⟨_, (s.call_eq_exec .write v hb).trans (exec_write_eq hc), ?_, rfl, hc, rfl, rfl⟩
  show (State.memWrite _ _ _).mem = _
  rw [State.memWrite_of_byteExact (by simpa using he)]
  simp

/-- A called READI of a byte-exact slot inside the window gives the slot's word, and leaves the memory. -/
theorem State.call_readi {s : State} {i : Word} (hc : s.status.configured = true) (hb : s.status.busy = false)
    (hw : s.inWindow (s.addrOf i.toNat) = true) (he : s.byteExact (s.addrOf i.toNat) = true) :
    ∃ t, s.call (encode .readi) i = .next t ∧
      t.regs.result = s.slotWord i.toNat ∧ t.status.err = .ok ∧ t.mem = s.mem := by
  refine ⟨_, (s.call_eq_exec .readi i hb).trans (exec_eq_readInto hc (.inl ⟨rfl, rfl⟩)), ?_⟩
  rw [State.readInto_eq, State.called_indexAddr, State.memRead_of_byteExact (by simpa using hw) (by simpa using he)]
  exact ⟨rfl, rfl, rfl⟩

/-- The bytes of a word number `2 ^ WORD_BITS` values. -/
theorem State.pow_wordBytes (s : State) : 256 ^ s.wordBytes = 2 ^ s.params.wordBits :=
  (Nat.pow_mul 2 8 s.wordBytes).symm

/-- The word a store of `WORD_BYTES` bytes leaves is read back, cut to `WORD_BITS`. -/
theorem State.load_store (s : State) {m : Memory} (hm : m.wf) (a v : Word) :
    (m.store a s.wordBytes v.toNat).load a s.wordBytes = v.toNat % 2 ^ s.params.wordBits := by
  have hle := s.wordBytes_le
  rw [Memory.load_store m hm _ (by omega), s.pow_wordBytes]

/-- A slot's word is the whole number its bytes make. -/
theorem State.slotWord_toNat (s : State) (i : Nat) : (s.slotWord i).toNat = s.mem.load (s.addrOf i) s.wordBytes := by
  have hlt : s.mem.load (s.addrOf i) s.wordBytes < 2 ^ 32 :=
    calc s.mem.load (s.addrOf i) s.wordBytes < 256 ^ s.wordBytes := s.mem.load_lt _ _
      _ ≤ 256 ^ 4 := Nat.pow_le_pow_right (by decide) s.wordBytes_le
  rw [State.slotWord, BitVec.toNat_ofNat, Nat.mod_eq_of_lt hlt]

/-- Settles O31: the WRITE stores at the old cursor's slot and moves neither the window nor the slot, so the READI reads the
stored word back (`State.load_store`). -/
theorem readAfterWriteReturnsTheWord : Obligations.ReadAfterWriteReturnsTheWord := by
  intro s v hm hc hb hw hcur he
  have hin : s.inWindow s.writeAddr = true := slotsLieInsideTheWindow s _ hw hcur
  obtain ⟨t, ht, hmem, hp, hct, hbt, hregs⟩ := State.call_write hc hb he v
  have haddr : t.addrOf s.regs.cursor.toNat = s.writeAddr := by
    simp only [State.writeAddr, State.addrOf, hregs]
  have hbytes : t.wordBytes = s.wordBytes := congrArg (·.wordBytes.count) hp
  have hint : t.inWindow (t.addrOf s.regs.cursor.toNat) = true := by
    rw [haddr, ← hin]
    simp only [State.inWindow, State.windowEnd, hbytes, hregs]
  have het : t.byteExact (t.addrOf s.regs.cursor.toNat) = true := by
    rw [haddr, ← he]
    simp only [State.byteExact, State.aligned, hbytes, hp]
  obtain ⟨u, hu, hres, herr, -⟩ := State.call_readi hct hbt hint het
  refine ⟨t, u, ht, hu, ?_, herr⟩
  rw [hres, t.slotWord_toNat, haddr, hbytes, hmem, s.load_store hm, truncTo_toNat, Nat.mod_mod]

end Sys2Proof.Machine
end

section
/-! Who writes the memory, the sink's stream and the tick's registers (20_memory.md R60, R68; 43_bulk.md R173, R175;
60_exceptions.md R214): said of the host's write and of a command's step, then of a step of the machine. -/

namespace Sys2Proof.Machine

/-! ### A write of the host -/

theorem State.hostWrite_sink (s : State) (r : HostReg) (d : Word) : (s.hostWrite r d).sink = s.sink := by
  rcases s.hostWrite_cases r d with h | ⟨_, _, _, h⟩ | ⟨_, h⟩ | ⟨-, -, h⟩ <;> rw [h]
  rfl

/-- A write leaves `seq.t0` and the count of draws, unless it is an acceptance of EXPORT. -/
theorem State.hostWrite_tick (s : State) (r : HostReg) (d : Word) :
    ((s.hostWrite r d).seq.t0 = s.seq.t0 ∧ (s.hostWrite r d).draws = s.draws) ∨
    (s.status.busy = false ∧ r = .cmd ∧ decode d = .command .exportText) := by
  rcases s.hostWrite_cases r d with h | ⟨_, _, _, h⟩ | ⟨_, h⟩ | ⟨hr, hb, h⟩ <;> rw [h]
  · exact .inl ⟨rfl, rfl⟩
  · exact .inl ⟨rfl, rfl⟩
  · exact .inl ⟨rfl, rfl⟩
  · rcases s.tickAtAccept_cases d with ⟨hd, -⟩ | ⟨-, he⟩
    · exact .inr ⟨hb, hr, hd⟩
    · rw [State.accept_eq, he]
      exact .inl ⟨rfl, rfl⟩

/-! ### A step of a command -/

theorem ExecCase.mem_eq {s t : State} {i : Instr} (h : ExecCase s i t) (hw : i ≠ .write) (hf : i ≠ .fillz) :
    t.mem = s.mem := by
  cases h with
  | writes => exact absurd rfl hw
  | fills | fillsLast => exact absurd rfl hf
  | rejected | configFails | configInstalls | reads | outOfRange | exportReads | exportWaits | exportFails | exportSends
  | exportEnds => rfl

/-- A step of a command leaves the stream, or is EXPORT's and sends the first byte queued. -/
theorem ExecCase.stream_grows {s t : State} {i : Instr} (h : ExecCase s i t) :
    t.sink.stream = s.sink.stream ∨
    (i = .exportText ∧ ∃ b rest, s.seq.bytes = b :: rest ∧ t.sink.stream = s.sink.stream ++ [b]) := by
  cases h with
  | exportSends b rest answers hb => exact .inr ⟨rfl, b, rest, hb, rfl⟩
  | exportEnds b answers hb => exact .inr ⟨rfl, b, [], hb, rfl⟩
  | rejected | configFails | configInstalls | writes | reads | outOfRange | fills | fillsLast | exportReads | exportWaits
  | exportFails => exact .inl rfl

/-- No command writes the start of the measurement. -/
theorem ExecCase.t0_eq {s t : State} {i : Instr} (h : ExecCase s i t) : t.seq.t0 = s.seq.t0 := by cases h <;> rfl

/-- CONFIG leaves DURATION or clears it. -/
theorem ExecCase.config_duration {s t : State} (h : ExecCase s .config t) :
    t.regs.duration = s.regs.duration ∨ t.regs.duration = 0 := by
  cases h with
  | rejected | configFails => exact .inl rfl
  | configInstalls => exact .inr rfl
  | reads _ _ _ hr => exact absurd rfl (ne_of_reads hr).1

/-! ### A step of the machine -/

/-- Settles O50: the host's write leaves memory and sink, and a command as `ExecCase.mem_eq` and `ExecCase.stream_grows` say. -/
theorem memoryAndSinkHaveFewWriters : Obligations.MemoryAndSinkHaveFewWriters := by
  intro s t h
  cases move_cases h with
  | hostWrites r d _ agent =>
    rw [((s.popTurn.setHost agent).hostWrite_frame r d).2.1, State.hostWrite_sink]
    exact ⟨fun _ _ => rfl, .inl rfl⟩
  | command i hr _ hc =>
    simp only [State.runs_iff hr]
    exact ⟨hc.mem_eq, hc.stream_grows⟩
  | reset | bringUp | hostReads | idle | illegal => exact ⟨fun _ _ => rfl, .inl rfl⟩

/-- Only an acceptance of EXPORT writes `seq.t0`, and no other step of the host takes a draw. -/
theorem step_tick {s t : State} (h : step s = .next t) (hreset : s.turn ≠ .reset) :
    (t.seq.t0 = s.seq.t0 ∧ (s.turn = .host → t.draws = s.draws)) ∨
    (s.status.busy = false ∧ ∃ w, s.hostWrites .cmd w ∧ decode w = .command .exportText) := by
  cases move_cases h with
  | reset ht => exact absurd ht hreset
  | hostWrites r d hw agent =>
    rcases (s.popTurn.setHost agent).hostWrite_tick r d with ⟨h0, hd⟩ | ⟨hb, rfl, hd⟩
    · exact .inl ⟨h0, fun _ => hd⟩
    · exact .inr ⟨hb, d, hw, hd⟩
  | command i hr _ hc => exact .inl ⟨hc.t0_eq, fun ht => nomatch ht.symm.trans hr.1⟩
  | bringUp | hostReads | idle | illegal => exact .inl ⟨rfl, fun _ => rfl⟩

/-- A step in which a command runs is a step of that command. -/
theorem execCase_of_runs {s t : State} {i : Instr} (h : step s = .next t) (hr : s.runs i) : ExecCase s.popTurn i t := by
  obtain ⟨ht, hp, hd⟩ := hr
  rw [step, ht] at h
  exact exec_cases ((s.popTurn.sequencerStep_command i hp hd).symm.trans h)

/-- Settles O60: `seq.t0` and the draws by `step_tick`; DURATION by its writers (`registersHaveFewWriters`), of which FILLZ is
none; DUR_VALID by `ExecCase.durValid_iff`. -/
theorem onlyExportSamplesTheTick : Obligations.OnlyExportSamplesTheTick := by
  intro s t h hreset
  obtain ⟨-, -, -, hdur, -⟩ := registersHaveFewWriters s t h hreset
  refine ⟨fun h0 => ?t0, fun ht hd => ?draws, fun hd => ?duration, fun hf => ?fillz⟩
  case t0 => exact (step_tick h hreset).resolve_left fun hk => h0 hk.1
  case draws => exact (step_tick h hreset).resolve_left fun hk => hd (hk.2 ht)
  case duration =>
    by_cases he : s.exportEnds
    · exact .inl he
    · have hr : s.runs .config := by_contra fun hr => hd (hdur hr he)
      exact .inr ⟨hr, (execCase_of_runs h hr).config_duration.resolve_left hd⟩
  case fillz =>
    have hc := execCase_of_runs h hf
    have hconfig : ¬ s.runs .config := by simp [State.runs_iff hf]
    have hends : ¬ s.exportEnds := by simp [State.exportEnds_iff, State.runs_iff hf]
    have hvalid : t.status.durValid = true ↔ s.status.durValid = true := by simpa using hc.durValid_iff
    exact ⟨hc.t0_eq, hdur hconfig hends, Bool.eq_iff_iff.mpr hvalid⟩

end Sys2Proof.Machine
end

section
/-! Proofs for the command word (30_encoding.md R90 to R94): a word is its fields put together, so the decoder answers a
command only on that command's own word. -/

namespace Sys2Proof

/-! ### Fields -/

theorem word_eq_append_fields (w : Word) : w = (commandFields w).rsv ++ (commandFields w).op :=
  (BitVec.extractLsb'_append_extractLsb' (w := 28) (len := 4) (x := w)).symm

theorem toNat_eq_fields (w : Word) : w.toNat = 16 * (commandFields w).rsv.toNat + (commandFields w).op.toNat := by
  conv_lhs => rw [word_eq_append_fields w, Machine.toNat_append_eq_add]
  omega

theorem encode_toNat_bounds (i : Instr) : 1 ≤ (encode i).toNat ∧ (encode i).toNat < 8 := by cases i <;> decide

/-- A word's fields are legal exactly on 0x1 to 0x7 (30_encoding.md R92). -/
theorem commandFields_wf_iff (w : Word) : (commandFields w).wf = true ↔ 1 ≤ w.toNat ∧ w.toNat < 8 := by
  have hw := toNat_eq_fields w
  simp only [CommandFields.wf, Bool.and_eq_true, beq_iff_eq, decide_eq_true_eq, ← BitVec.toNat_inj, BitVec.ofNat_eq_ofNat,
    BitVec.toNat_ofNat, Nat.zero_mod]
  omega

/-! ### The decoder -/

/-- Everything the opcode map can answer: the command of the opcode, or the rejection of a reserved one. -/
theorem decodeOp_cases (op : BitVec 4) :
    (∃ i, decodeOp op = .command i ∧ op = opcode i) ∨
    (decodeOp op = .illegal .reservedOpcode ∧ (op.toNat = 0 ∨ 8 ≤ op.toNat)) := by
  unfold decodeOp
  split
  case h_8 =>
    refine .inr ⟨rfl, ?_⟩
    simp only [imp_false] at *
    omega
  all_goals exact .inl ⟨_, rfl, BitVec.eq_of_toNat_eq ‹_›⟩

/-- Everything the decoder can answer: the command whose word it is, or the rejection of a word that is no command's. -/
theorem decode_cases (w : Word) :
    (∃ i, decode w = .command i ∧ w = encode i) ∨
    (∃ why, decode w = .illegal why ∧ (w.toNat = 0 ∨ 8 ≤ w.toNat)) := by
  have hw := toNat_eq_fields w
  unfold decode
  by_cases hrsv : (commandFields w).rsv = 0
  · rw [if_pos hrsv]
    rcases decodeOp_cases (commandFields w).op with ⟨i, hd, hop⟩ | ⟨hd, hop⟩
    · refine .inl ⟨i, hd, ?_⟩
      rw [word_eq_append_fields w, hrsv, hop, encode]
    · rw [hrsv] at hw
      exact .inr ⟨_, hd, by simpa [hw] using hop⟩
  · rw [if_neg hrsv]
    have hpos : (commandFields w).rsv.toNat ≠ 0 := BitVec.toNat_ne.mp hrsv
    exact .inr ⟨_, rfl, .inr (by omega)⟩

theorem decode_eq_command_iff (i : Instr) (w : Word) : decode w = .command i ↔ w = encode i := by
  refine ⟨fun hd => ?_, fun hw => hw ▸ Machine.decode_encode i⟩
  rcases decode_cases w with ⟨j, hj, hw⟩ | ⟨why, hwhy, -⟩
  · obtain rfl : j = i := Decoded.command.inj (hj.symm.trans hd)
    exact hw
  · exact nomatch hwhy.symm.trans hd

theorem decode_eq_illegal_iff (w : Word) : (∃ why, decode w = .illegal why) ↔ w.toNat = 0 ∨ 8 ≤ w.toNat := by
  rcases decode_cases w with ⟨i, hd, rfl⟩ | ⟨why, hd, hw⟩
  · have hbounds := encode_toNat_bounds i
    exact ⟨fun ⟨_, h⟩ => (nomatch hd.symm.trans h), fun h => by omega⟩
  · exact ⟨fun _ => hw, fun _ => ⟨why, hd⟩⟩

/-- The opcode table's numbering of a 32-bit word is the word itself. -/
theorem decodeTableWord_eq_some_iff (i : Instr) {w : Nat} (hw : w < 2 ^ 32) :
    decodeTableWord 32 w = some i ↔ decode (BitVec.ofNat 32 w) = .command i := by
  rw [decodeTableWord, Nat.mod_eq_of_lt hw, if_pos hw]
  cases decode (BitVec.ofNat 32 w) <;> simp

/-- Settles O1: each legal word is its command's encoding (`decode_eq_command_iff`). -/
theorem opcodeMapIsExact : Obligations.OpcodeMapIsExact := fun w =>
  ⟨decode_eq_command_iff .config w, decode_eq_command_iff .write w, decode_eq_command_iff .readi w,
    decode_eq_command_iff .reado w, decode_eq_command_iff .fillz w, decode_eq_command_iff .exportText w,
    decode_eq_command_iff .readc w, decode_eq_illegal_iff w⟩

/-- Settles O2: `decode_eq_command_iff` on the word and on its number; a word with legal fields is not illegal. -/
theorem decodeAndEncodeAgree : Obligations.DecodeAndEncodeAgree := by
  refine ⟨fun i w _ => decode_eq_command_iff i w, fun i w hw => ?table, fun w => ?fields⟩
  case table =>
    rw [decodeTableWord_eq_some_iff i hw, decode_eq_command_iff, ← BitVec.toNat_inj, BitVec.toNat_ofNat,
      Nat.mod_eq_of_lt hw]
  case fields =>
    rw [commandFields_wf_iff]
    rcases decode_cases w with ⟨i, hd, rfl⟩ | ⟨why, hd, hw⟩
    · exact ⟨fun _ => ⟨i, hd⟩, fun _ => encode_toNat_bounds i⟩
    · exact ⟨fun h => by omega, fun ⟨_, h⟩ => nomatch hd.symm.trans h⟩

/-- Settles O3: the decoder evaluated on six words. -/
theorem sampleWordsDecode : Obligations.SampleWordsDecode := by
  unfold Obligations.SampleWordsDecode
  decide

end Sys2Proof
end

section
/-! What no step of a command reads: the host agent, and the operands the command does not use (30_encoding.md R93). A change
to them passes through a step unchanged. -/

namespace Sys2Proof.Machine

/-- The state with its latches and its host agent changed. -/
def State.mapUnread (f : Latches → Latches) (g : HostAgent → HostAgent) (s : State) : State :=
  { s with lat := f s.lat, host := g s.host }

/-- The latches `l` hold the operands that a step of `i` from `s` uses (30_encoding.md R93; 42_word_access.md R142). -/
def State.operandsAgree (s : State) (l : Latches) : Instr → Prop
  | .config => l = s.lat
  | .write => truncTo s.params.wordBits l.a = s.writeValue
  | .readi | .reado | .readc => l.a = s.lat.a
  | .fillz | .exportText => True

theorem State.operandsAgree_self (s : State) (i : Instr) : s.operandsAgree s.lat i := by cases i <;> trivial

section

variable (f : Latches → Latches) (g : HostAgent → HostAgent) (s : State)

@[simp] theorem State.mapUnread_lat : (s.mapUnread f g).lat = f s.lat := rfl
@[simp] theorem State.mapUnread_seq : (s.mapUnread f g).seq = s.seq := rfl
@[simp] theorem State.mapUnread_regs : (s.mapUnread f g).regs = s.regs := rfl
@[simp] theorem State.mapUnread_sink : (s.mapUnread f g).sink = s.sink := rfl
@[simp] theorem State.mapUnread_writeAddr : (s.mapUnread f g).writeAddr = s.writeAddr := rfl
@[simp] theorem State.mapUnread_bulkAddr : (s.mapUnread f g).bulkAddr = s.bulkAddr := rfl
@[simp] theorem State.mapUnread_rejectedAtStart : (s.mapUnread f g).rejectedAtStart = s.rejectedAtStart := rfl

/-! ### The shared operations -/

/-- A choice between two states passes the change to both. -/
theorem ite_mapUnread {p : Prop} [Decidable p] {a b a' b' : State} (ha : a' = a.mapUnread f g) (hb : b' = b.mapUnread f g) :
    (if p then a' else b') = (if p then a else b).mapUnread f g := by
  rw [apply_ite (State.mapUnread f g), ha, hb]

theorem State.memWrite_mapUnread (a v : Word) : (s.mapUnread f g).memWrite a v = (s.memWrite a v).mapUnread f g :=
  ite_mapUnread f g rfl rfl

theorem State.memRead_mapUnread (a : Word) :
    (s.mapUnread f g).memRead a = ((s.memRead a).1, (s.memRead a).2.mapUnread f g) := by
  rcases s.memRead_cases a with ⟨hw, he, h⟩ | ⟨hw, he, h⟩ | ⟨hw, h⟩ <;> rw [h]
  · exact State.memRead_of_byteExact hw he
  · exact State.memRead_of_misaligned hw he
  · exact State.memRead_of_outside hw

theorem State.readInto_mapUnread (a : Word) : (s.mapUnread f g).readInto a = (s.readInto a).mapUnread f g := by
  rw [State.readInto, State.memRead_mapUnread]
  rfl

theorem State.install_mapUnread (h : f s.lat = s.lat) : (s.mapUnread f g).install = s.install.mapUnread f g := by
  unfold State.install
  rw [State.mapUnread_lat, h]
  rfl

theorem State.exportRead_mapUnread : (s.mapUnread f g).exportRead = s.exportRead.mapUnread f g := by
  rw [State.exportRead, State.memRead_mapUnread]
  rfl

theorem State.sinkPut_mapUnread (b : Byte) :
    (s.mapUnread f g).sinkPut b = (s.sinkPut b).map (Prod.map id (State.mapUnread f g)) := by
  rw [State.sinkPut, State.sinkPut, State.mapUnread_sink]
  rcases s.sink.answers with _ | ⟨_ | _, rest⟩ <;> rfl

theorem State.exportByte_mapUnread (b : Byte) (rest : List Byte) :
    (s.mapUnread f g).exportByte b rest = (s.exportByte b rest).mapUnread f g := by
  rw [State.exportByte, State.exportByte, State.sinkPut_mapUnread]
  rcases s.sinkPut b with _ | ⟨_ | _, t⟩
  · rfl
  · exact ite_mapUnread f g rfl rfl
  · rfl

/-! ### The commands -/

theorem exec_config_mapUnread (h : f s.lat = s.lat) :
    exec .config (s.mapUnread f g) = mapNext (State.mapUnread f g) (exec .config s) := by
  show Host.Outcome.next (if (f s.lat).a = 0 then _ else _) = .next _
  rw [h]
  exact congrArg Host.Outcome.next (ite_mapUnread f g rfl (congrArg (State.complete · .ok) (s.install_mapUnread f g h)))

/-- A command of one step that checks CONFIGURED passes the change on when its rule does. -/
theorem State.ifConfigured_mapUnread {s r r' : State} (hr : r' = r.mapUnread f g) :
    (s.mapUnread f g).ifConfigured r' = mapNext (State.mapUnread f g) (s.ifConfigured r) :=
  congrArg Host.Outcome.next (ite_mapUnread f g hr rfl)

theorem exec_write_mapUnread (h : truncTo s.params.wordBits (f s.lat).a = s.writeValue) :
    exec .write (s.mapUnread f g) = mapNext (State.mapUnread f g) (exec .write s) := by
  refine State.ifConfigured_mapUnread f g ?_
  rw [show (s.mapUnread f g).writeValue = s.writeValue from h, State.mapUnread_writeAddr, State.memWrite_mapUnread]
  generalize s.memWrite s.writeAddr s.writeValue = t
  rfl

theorem exec_fillz_mapUnread : exec .fillz (s.mapUnread f g) = mapNext (State.mapUnread f g) (exec .fillz s) := by
  show execFillz _ = mapNext _ (execFillz _)
  rw [execFillz, execFillz, State.mapUnread_bulkAddr, State.memWrite_mapUnread]
  generalize s.memWrite s.bulkAddr 0 = t
  exact congrArg Host.Outcome.next (ite_mapUnread f g rfl (ite_mapUnread f g rfl rfl))

theorem exec_exportText_mapUnread :
    exec .exportText (s.mapUnread f g) = mapNext (State.mapUnread f g) (exec .exportText s) := by
  simp only [exec, execExport, State.mapUnread_rejectedAtStart, State.mapUnread_seq, State.mapUnread_regs,
    State.exportByte_mapUnread, State.exportRead_mapUnread, apply_ite (mapNext (State.mapUnread f g))]
  rcases s.seq.bytes with _ | ⟨b, rest⟩
  · simp only [apply_ite (mapNext (State.mapUnread f g))]
    rfl
  · rfl

/-- The change passes through the step of a command, if it leaves the operands the command uses: the host agent, the command
word and the other operands are not read. -/
theorem exec_mapUnread (i : Instr) (h : s.operandsAgree (f s.lat) i) :
    exec i (s.mapUnread f g) = mapNext (State.mapUnread f g) (exec i s) := by
  have hindex (ha : (f s.lat).a = s.lat.a) : (s.mapUnread f g).indexAddr = s.indexAddr :=
    congrArg (fun v : Word => s.addrOf v.toNat) ha
  cases i
  case config => exact exec_config_mapUnread f g s h
  case write => exact exec_write_mapUnread f g s h
  case readi => exact State.ifConfigured_mapUnread f g (hindex h ▸ s.readInto_mapUnread f g _)
  case reado =>
    have haddr : (s.mapUnread f g).offsetAddr = s.offsetAddr := congrArg (s.regs.base + ·) h
    exact State.ifConfigured_mapUnread f g (haddr ▸ s.readInto_mapUnread f g _)
  case readc =>
    have hrange : (s.mapUnread f g).indexInRange = s.indexInRange :=
      congrArg (fun v : Word => decide (v.toNat < s.regs.capacity.toNat)) h
    refine State.ifConfigured_mapUnread f g ?_
    rw [hrange, hindex h]
    exact ite_mapUnread f g (s.readInto_mapUnread f g _) rfl
  case fillz => exact exec_fillz_mapUnread f g s
  case exportText => exact exec_exportText_mapUnread f g s

end

/-- Settles O53: the changed operands are not among those the command uses (`exec_mapUnread`). -/
theorem unusedOperandsAreIgnored : Obligations.UnusedOperandsAreIgnored := by
  intro s i x y z
  refine ⟨fun hconfig hfillz hexport => ?other, fun hbulk => ?bulk, fun htrunc => ?write⟩
  case other =>
    refine exec_mapUnread (fun l => { l with b := y, c := z }) id s i ?_
    cases i
    case config => exact absurd rfl hconfig
    case fillz => exact absurd rfl hfillz
    case exportText => exact absurd rfl hexport
    case write | readi | reado | readc => rfl
  case bulk =>
    refine exec_mapUnread (fun l => { l with a := x, b := y, c := z }) id s i ?_
    rcases hbulk with rfl | rfl <;> trivial
  case write => exact exec_mapUnread (fun l => { l with a := x }) id s .write (congrArg (BitVec.ofNat 32) htrunc)

end Sys2Proof.Machine
end

section
/-! The host script as a call (30_encoding.md R97; 40_host_port.md R122): the host writes the operand and the command, the
sequencer completes it in one step, and the host's poll reads STATUS. -/

namespace Sys2Proof.Machine

/-! ### The host agent apart from the block -/

theorem State.hostWrite_setHost (s : State) (agent : HostAgent) (r : HostReg) (d : Word) :
    (s.setHost agent).hostWrite r d = (s.hostWrite r d).setHost agent := by
  cases r
  case cmd =>
    simp only [State.hostWrite, State.cmdWrite, apply_ite (State.setHost · agent)]
    rfl
  case status | opa | opb | opc | result | capacity | base | increment | cursor | duration | params | reserved => rfl

/-- The sequencer does not see the host agent. -/
theorem State.sequencerStep_setHost (s : State) (agent : HostAgent) :
    (s.setHost agent).sequencerStep = mapNext (State.setHost · agent) s.sequencerStep := by
  unfold State.sequencerStep
  rw [State.setHost_seq, State.setHost_lat]
  rcases s.seq.phase with _ | _
  · rfl
  · rcases decode s.lat.op with i | why
    · exact exec_mapUnread id (fun _ => agent) s i (s.operandsAgree_self i)
    · rfl

/-! ### A turn without a schedule -/

theorem hostRegAt_hostOffset (r : HostReg) : hostRegAt (hostOffset r) = some r := by cases r <;> rfl

theorem accessReg_hostOffset (hostBase : Nat) (r : HostReg) (k : AccessKind) :
    accessReg hostBase { addr := hostBase + hostOffset r, size := 4, kind := k } = some r := by
  simp [accessReg, hostRegAt_hostOffset]

/-- While the sequencer is idle the host moves. -/
theorem step_idle {s : State} (hs : s.schedule = []) (hp : s.seq.phase = .idle) (agent : HostAgent) :
    step (s.setHost agent) = (s.setHost agent).hostStep := by
  rw [step_of_schedule_nil (s := s.setHost agent) hs, if_neg (by simp [hp])]

/-- While the sequencer is idle, a `WR` line of the script writes its register. -/
theorem step_hostWR {s : State} (hs : s.schedule = []) (hp : s.seq.phase = .idle) (r : HostReg) (d : Word)
    (rest : List HostOp) (reads : List Word) :
    step (s.setHost ⟨hostWR s.params.hostBase r d :: rest, reads⟩) =
      .next ((s.hostWrite r d).setHost ⟨rest, reads⟩) := by
  rw [step_idle hs hp, ← State.hostWrite_setHost]
  simp only [State.hostStep, State.setHost_host, hostWR, State.hostAccess, State.setHost_params, accessReg_hostOffset]
  rfl

/-- While the sequencer is idle and BUSY = 0, the poll of a `WAIT` ends it. -/
theorem step_wait {s : State} (hs : s.schedule = []) (hp : s.seq.phase = .idle) (hb : s.status.busy = false)
    (rest : List HostOp) (reads : List Word) :
    step (s.setHost ⟨.wait :: rest, reads⟩) = .next (s.setHost ⟨rest, reads ++ [statusWord s.status]⟩) := by
  rw [step_idle hs hp]
  simp only [State.hostStep, State.setHost_host, State.setHost_status, hb, Bool.false_eq_true, if_false]
  rfl

/-- A running command with no byte queued is not waiting for the sink, so the sequencer moves. -/
theorem step_running {s : State} (hs : s.schedule = []) (hp : s.seq.phase = .run) (hq : s.seq.bytes = [])
    (agent : HostAgent) : step (s.setHost agent) = mapNext (State.setHost · agent) s.sequencerStep := by
  have hwait : (s.setHost agent).awaitingSink = false := by simp [State.awaitingSink, hq]
  rw [step_of_schedule_nil (s := s.setHost agent) hs, if_pos ⟨hp, hwait⟩, State.sequencerStep_setHost]

/-! ### The sequencer's step -/

theorem ExecCase.schedule_eq {s t : State} {i : Instr} (h : ExecCase s i t) : t.schedule = s.schedule := by cases h <;> rfl

/-- Every command but FILLZ and EXPORT completes in its step (40_host_port.md R122). -/
theorem ExecCase.completes {s t : State} {i : Instr} (h : ExecCase s i t) (hf : i ≠ .fillz) (he : i ≠ .exportText) :
    t.seq.phase = .idle ∧ t.status.busy = false := by
  cases h with
  | fills | fillsLast => exact absurd rfl hf
  | exportReads | exportWaits | exportFails | exportSends | exportEnds => exact absurd rfl he
  | rejected | configFails | configInstalls | writes | reads | outOfRange => exact ⟨rfl, rfl⟩

/-- A running word that is not FILLZ or EXPORT completes in one step of the sequencer, legal or not. -/
theorem State.sequencerStep_completes {s : State} (hp : s.seq.phase = .run) (hf : decode s.lat.op ≠ .command .fillz)
    (he : decode s.lat.op ≠ .command .exportText) :
    ∃ t, s.sequencerStep = .next t ∧ t.seq.phase = .idle ∧ t.status.busy = false ∧ t.schedule = s.schedule := by
  rcases hd : decode s.lat.op with i | why
  · rw [hd] at hf he
    rw [s.sequencerStep_command i hp hd]
    obtain ⟨t, ht⟩ := (exec_total i s).resolve_right fun h => he (congrArg _ h.1)
    have hc := exec_cases ht
    obtain ⟨hidle, hbusy⟩ := hc.completes (fun h => hf (congrArg _ h)) (fun h => he (congrArg _ h))
    exact ⟨t, ht, hidle, hbusy, hc.schedule_eq⟩
  · refine ⟨s.complete .illegalCommand, ?_, rfl, rfl, rfl⟩
    simp only [State.sequencerStep, hp, hd]

/-! ### The call -/

/-- The two writes of a call are acceptance of its command with its operand. -/
theorem State.hostWrite_opa_cmd {s : State} (hb : s.status.busy = false) (w a : Word) :
    (s.hostWrite .opa a).hostWrite .cmd w = s.called w a :=
  if_neg (ne_true_of_eq_false hb)

theorem State.call_of_not_busy {s : State} (hb : s.status.busy = false) (w a : Word) :
    s.call w a = (s.called w a).sequencerStep :=
  congrArg State.sequencerStep (State.hostWrite_opa_cmd hb w a)

/-- Settles O18: two turns of the host accept the command, the sequencer's turn is the call's step
(`State.sequencerStep_setHost`) and completes it, and the host's last turn polls STATUS. -/
theorem hostScriptIsASynchronousCall : Obligations.HostScriptIsASynchronousCall := by
  intro s w a rest hs hp hb hf he hscript
  obtain ⟨t, ht, hidle, hbusy, hsched⟩ := State.sequencerStep_completes (s := s.called w a) rfl hf he
  refine ⟨t, (State.call_of_not_busy hb w a).trans ht, ?_⟩
  have hself : s = s.setHost
      ⟨hostWR s.params.hostBase .opa a :: hostWR s.params.hostBase .cmd w :: .wait :: rest, s.host.reads⟩ := by
    rw [← hscript]
    rfl
  calc Host.Core.run core 4 s
    _ = Host.Core.run core 4 (s.setHost ⟨_, s.host.reads⟩) := congrArg (Host.Core.run core 4) hself
    _ = Host.Core.run core 3 ((s.hostWrite .opa a).setHost ⟨_, s.host.reads⟩) :=
      run_of_step 3 _ _ (step_hostWR hs hp .opa a _ _)
    _ = Host.Core.run core 2 ((s.called w a).setHost ⟨.wait :: rest, s.host.reads⟩) :=
      run_of_step 2 _ _ (State.hostWrite_opa_cmd hb w a ▸ step_hostWR (s := s.hostWrite .opa a) hs hp .cmd w _ _)
    _ = Host.Core.run core 1 (t.setHost ⟨.wait :: rest, s.host.reads⟩) :=
      run_of_step 1 _ _ ((step_running (s := s.called w a) hs rfl rfl _).trans (congrArg (mapNext _) ht))
    _ = .next (t.setHost ⟨rest, s.host.reads ++ [statusWord t.status]⟩) :=
      run_of_step 0 _ _ (step_wait (hsched.trans hs) hidle hbusy _ _)

end Sys2Proof.Machine
end

section
/-! Proofs for the host port (40_host_port.md R110 to R117): an access of the admitted form reaches the register at its offset,
and any other is refused. -/

namespace Sys2Proof.Machine

/-! ### Offsets and registers -/

/-- An access of the right size reaches the register at its offset (40_host_port.md R110). -/
theorem accessReg_offset (hostBase off : Nat) (k : AccessKind) :
    accessReg hostBase { addr := hostBase + off, size := 4, kind := k } = hostRegAt off := by
  simp [accessReg]

/-- The access reaches a register exactly when it has the admitted form (40_host_port.md R110). -/
theorem accessReg_isSome_iff (hostBase : Nat) (a : HostAccess) :
    (accessReg hostBase a).isSome = true ↔ a.wf hostBase = true := by
  simp only [HostAccess.wf, Bool.and_eq_true, beq_iff_eq, decide_eq_true_eq, and_assoc, ← hostRegAt_isSome]
  unfold accessReg
  split <;> simp_all

/-- Every register but the reserved ones stands at its own offset alone (10_state.md R22). -/
theorem eq_hostOffset_iff {off : Nat} {r : HostReg} (h : hostRegAt off = some r) (r' : HostReg) (hr' : r' ≠ .reserved) :
    off = hostOffset r' ↔ r = r' := by
  constructor
  · rintro rfl
    exact Option.some.inj (h.symm.trans (hostRegAt_hostOffset r'))
  · rintro rfl
    unfold hostRegAt at h
    split at h <;> cases h <;> simp_all [hostOffset]

/-! ### A step of the script -/

section

/-! The next line of the script is an access. -/

variable {s : State} {a : HostAccess} {rest : List HostOp} (hs : s.host.script = .access a :: rest)
include hs

theorem State.hostStep_access : s.hostStep = (s.setHost { s.host with script := rest }).hostAccess a := by
  simp only [State.hostStep, hs]

theorem State.hostStep_refused (hr : accessReg s.params.hostBase a = none) : s.hostStep = .refused .hostNarrow := by
  rw [State.hostStep_access hs, State.hostAccess, State.setHost_params, hr]

theorem State.hostStep_read {r : HostReg} (hr : accessReg s.params.hostBase a = some r) (hk : a.kind = .read) :
    s.hostStep = .next { s with host := { script := rest, reads := s.host.reads ++ [s.hostRead r] } } := by
  rw [State.hostStep_access hs, State.hostAccess, State.setHost_params, hr]
  simp only [hk]
  cases r <;> rfl

theorem State.hostStep_write {r : HostReg} {d : Word} (hr : accessReg s.params.hostBase a = some r)
    (hk : a.kind = .write d) :
    s.hostStep = .next ((s.setHost { s.host with script := rest }).hostWrite r d) := by
  rw [State.hostStep_access hs, State.hostAccess, State.setHost_params, hr]
  simp only [hk]

end

/-- A write of CMD stands at offset 0, and is `cmd_write` of the block whatever the host's script. -/
theorem State.hostStep_cmdWrite {s : State} {w : Word} {rest : List HostOp}
    (hs : s.host.script = .access { addr := s.params.hostBase, size := 4, kind := .write w } :: rest) :
    s.hostStep = .next ((s.cmdWrite w).setHost { s.host with script := rest }) :=
  (State.hostStep_write hs (accessReg_offset s.params.hostBase 0 _) rfl).trans
    (congrArg _ (s.hostWrite_setHost _ .cmd w))

/-! ### Every access, in the admitted form or not -/

theorem State.hostWrite_host (s : State) (r : HostReg) (d : Word) : (s.hostWrite r d).host = s.host := by
  rcases s.hostWrite_cases r d with h | ⟨_, _, _, h⟩ | ⟨_, h⟩ | ⟨-, -, h⟩ <;> rw [h]
  rfl

/-- Settles O17: the form check is the search for the register (`accessReg_isSome_iff`), and an access that reaches one is a
read or a write of it. -/
theorem narrowAccessesAreRefused : Obligations.NarrowAccessesAreRefused := by
  intro s a rest hs
  rw [← Bool.not_eq_true, ← accessReg_isSome_iff]
  rcases hr : accessReg s.params.hostBase a with _ | r
  · exact ⟨fun _ => State.hostStep_refused hs hr, nofun⟩
  · refine ⟨fun h => absurd rfl h, fun _ => ?_⟩
    rcases hk : a.kind with _ | d
    · exact ⟨_, State.hostStep_read hs hr hk, rfl⟩
    · exact ⟨_, State.hostStep_write hs hr hk, by rw [State.hostWrite_host]; rfl⟩

/-! ### Reads -/

/-- Settles O13: the list of the statement is `State.hostRead` of the register at each offset. -/
theorem hostReadsReturnTheRegister : Obligations.HostReadsReturnTheRegister := by
  intro s off rest v hmem hs
  have hread : (hostRegAt off).map s.hostRead = some v := by
    refine List.forall_iff_forall_mem (p := fun e => (hostRegAt e.1).map s.hostRead = some e.2) |>.mp ?_ (off, v) hmem
    exact ⟨rfl, rfl, rfl, rfl, rfl, rfl, rfl, rfl, rfl, rfl, rfl, rfl, rfl, rfl, rfl, rfl⟩
  obtain ⟨r, hr, rfl⟩ := Option.map_eq_some_iff.mp hread
  exact State.hostStep_read hs ((accessReg_offset _ _ _).trans hr) rfl

/-! ### Writes -/

/-- A write to any register but CMD, as one record (40_host_port.md R112). -/
theorem State.hostWrite_eq_of_ne_cmd {r : HostReg} (hr : r ≠ .cmd) (s : State) (d : Word) :
    s.hostWrite r d = { s with
      status := { s.status with ovr := if r = .status ∧ d.getLsbD 3 = true then false else s.status.ovr }
      regs := { s.regs with
        opa := if r = .opa then d else s.regs.opa
        opb := if r = .opb then d else s.regs.opb
        opc := if r = .opc then d else s.regs.opc } } := by
  cases r
  case cmd => exact absurd rfl hr
  case status =>
    simp only [State.hostWrite, Status.hostWrite_eq]
    cases d.getLsbD 3 <;> simp [State.setStatus]
  case opa | opb | opc => simp [State.hostWrite, State.setRegs]
  case result | capacity | base | increment | cursor | duration | params | reserved => simp [State.hostWrite]

/-- Settles O14: the offset names the register (`eq_hostOffset_iff`), and the write is `State.hostWrite` of it. -/
theorem hostWritesReachOnlyTheirRegister : Obligations.HostWritesReachOnlyTheirRegister := by
  intro s off d rest halign hoff hs
  obtain ⟨r, hr⟩ := Option.isSome_iff_exists.mp ((hostRegAt_isSome off).mpr ⟨halign, hoff⟩)
  have hstep := State.hostStep_write hs ((accessReg_offset _ _ _).trans hr) rfl
  have hcmd : off = 0x00 ↔ r = .cmd := eq_hostOffset_iff hr .cmd (by decide)
  have hstatus : off = 0x04 ↔ r = .status := eq_hostOffset_iff hr .status (by decide)
  have hopa : off = 0x08 ↔ r = .opa := eq_hostOffset_iff hr .opa (by decide)
  have hopb : off = 0x0C ↔ r = .opb := eq_hostOffset_iff hr .opb (by decide)
  have hopc : off = 0x10 ↔ r = .opc := eq_hostOffset_iff hr .opc (by decide)
  simp only [ne_eq, hcmd, hstatus, hopa, hopb, hopc]
  refine ⟨?cmd, fun hne => ?other⟩
  case cmd =>
    rintro rfl
    exact hstep
  case other => rw [hstep, State.hostWrite_eq_of_ne_cmd hne]; rfl

/-! ### Writes of CMD -/

theorem State.cmdWrite_of_busy {s : State} (hb : s.status.busy = true) (w : Word) :
    s.cmdWrite w = s.setStatus s.status.overrun :=
  if_pos hb

theorem State.cmdWrite_of_not_busy {s : State} (hb : s.status.busy = false) (w : Word) : s.cmdWrite w = s.accept w :=
  if_neg (ne_true_of_eq_false hb)

/-- Settles O16: the write is dropped by `State.cmdWrite_of_busy`, and OVR changes only by its events (`step_ovr_iff`). -/
theorem commandWriteWhileBusyIsDropped : Obligations.CommandWriteWhileBusyIsDropped := by
  refine ⟨fun s w rest hb hs => ?_, fun s t h ho hreset hclear => (step_ovr_iff h).mpr (.inr ⟨ho, hreset, hclear⟩)⟩
  rw [State.hostStep_cmdWrite hs, State.cmdWrite_of_busy hb]
  rfl

/-- Settles O15: the write is an acceptance, whose tick is a sample for EXPORT alone (`State.tickAtAccept_cases`). -/
theorem commandWriteWhileIdleIsAccepted : Obligations.CommandWriteWhileIdleIsAccepted := by
  intro s w rest hb hs
  have hstep := State.hostStep_cmdWrite hs
  rw [State.cmdWrite_of_not_busy hb, State.accept_eq] at hstep
  rcases s.tickAtAccept_cases w with ⟨hd, htick⟩ | ⟨hd, htick⟩
  · refine ⟨_, fun _ => truncTo_lt _ (Config.tick s.draws), fun h => absurd hd h, ?_⟩
    rw [hstep, htick, if_pos hd]
    rfl
  · refine ⟨s.seq.t0, fun h => absurd h hd, fun _ => rfl, ?_⟩
    rw [hstep, htick, if_neg hd]
    rfl

end Sys2Proof.Machine
end

section
/-! Proofs for the first step of an accepted word (40_host_port.md R119 to R122; 60_exceptions.md R202), and for the progress of
a running command. -/

namespace Sys2Proof.Machine

/-! ### The sequencer's step of a latched word -/

/-- Settles O4: the sequencer's turn runs the latched word (`State.sequencerStep_command`), and a placed word is latched with
that turn at the head of the schedule. -/
theorem stepRunsTheDecodedCommand : Obligations.StepRunsTheDecodedCommand := by
  refine ⟨fun s i ht hp hd => ?turn, fun s i => ?placed⟩
  case turn =>
    rw [step, ht]
    exact s.popTurn.sequencerStep_command i hp hd
  case placed =>
    have hword : BitVec.ofNat 32 ((encode i).toNat % 2 ^ 32) = encode i := by
      rw [Nat.mod_eq_of_lt (encode i).isLt, BitVec.ofNat_toNat, BitVec.setWidth_eq]
    rw [State.withFetchWord, hword, step_of_schedule_cons (s := s.withCommand (encode i)) rfl]
    exact (s.accept (encode i)).sequencerStep_command i rfl (decode_encode i)

theorem State.sequencerStep_illegal {s : State} {why : IllegalWord} (hp : s.seq.phase = .run)
    (hd : decode s.lat.op = .illegal why) : s.sequencerStep = .next (s.complete .illegalCommand) := by
  simp only [State.sequencerStep, hp, hd]

/-- Settles O6: the illegal numbers (`decode_eq_illegal_iff`) are those of illegal fields, and the step is
`State.sequencerStep_illegal`. -/
theorem illegalWordIsRejected : Obligations.IllegalWordIsRejected := by
  refine ⟨fun w => ?_, fun s hp ⟨_, hd⟩ => State.sequencerStep_illegal hp hd⟩
  have hw := toNat_eq_fields w
  rw [decode_eq_illegal_iff, ne_eq, ← BitVec.toNat_inj, BitVec.ofNat_eq_ofNat, BitVec.toNat_ofNat, Nat.zero_mod]
  omega

/-- Settles O10: `State.sequencerStep_completes` of the accepted word. -/
theorem oneStepCommandsCompleteAtOnce : Obligations.OneStepCommandsCompleteAtOnce := by
  intro s w hf he
  obtain ⟨t, ht, hidle, hbusy, -⟩ := State.sequencerStep_completes (s := s.accept w) rfl hf he
  exact ⟨t, ht, hbusy, hidle⟩

/-! ### The first step -/

/-- While CONFIGURED = 0, a command not begun other than CONFIG is rejected (40_host_port.md R120). -/
theorem exec_rejected {s : State} {i : Instr} (hi : i ≠ .config) (hc : s.status.configured = false)
    (hf : i = .fillz ∨ i = .exportText → s.firstStep = true) : exec i s = .next (s.complete .notConfigured) := by
  have hbulk (h : i = .fillz ∨ i = .exportText) : s.rejectedAtStart = true := by simp [State.rejectedAtStart, hf h, hc]
  cases i
  case config => exact absurd rfl hi
  case write | readi | reado | readc => exact congrArg _ (if_neg (ne_true_of_eq_false hc))
  case fillz => exact congrArg _ (if_pos (hbulk (.inl rfl)))
  case exportText => exact if_pos (hbulk (.inr rfl))

/-- Settles O7: `exec_rejected`. -/
theorem commandsNeedAnInstance : Obligations.CommandsNeedAnInstance :=
  fun _ _ hi hf hc => exec_rejected hi hc fun _ => hf

/-- The code after the first step of a command: the first error that applies, in the rule's order (60_exceptions.md R202). -/
theorem ExecCase.err_of_firstStep {s t : State} {i : Instr} (h : ExecCase s i t) (hf : s.firstStep = true)
    (herr : s.status.err = .ok) :
    t.status.err =
      if i = .config then (if s.lat.a.toNat = 0 then .invalidConfiguration else .ok)
      else if s.status.configured = false then .notConfigured
      else if i = .readc ∧ s.regs.capacity.toNat ≤ s.lat.a.toNat then .indexOutOfRange
      else .ok := by
  have hstart (hr : s.rejectedAtStart = false) : s.status.configured = true := s.rejectedAtStart_eq_false_iff.mp hr hf
  have hbytes : s.seq.bytes = [] := (s.firstStep_iff.mp hf).2
  cases h with
  | rejected _ hi hc => simp [hi, hc]
  | configFails ha => simp [ha]
  | configInstalls ha => simp [toNat_ne_zero ha]
  | writes hc => simp [hc]
  | reads _ a hc hr =>
    have hin : i = .readc → s.lat.a.toNat < s.regs.capacity.toNat := by
      rintro rfl
      obtain ⟨-, hlt⟩ : a = s.indexAddr ∧ s.indexInRange = true := by simpa using hr
      exact of_decide_eq_true hlt
    simp +contextual [hc, ne_of_reads hr, hin]
  | outOfRange hc hr => simpa [State.indexInRange, hc] using hr
  | fills hr | fillsLast hr | exportReads hr => simp [hstart hr, herr]
  | exportWaits _ _ hb | exportFails _ _ _ hb | exportSends _ _ _ hb | exportEnds _ _ hb =>
    exact nomatch hbytes.symm.trans hb

/-- An accepted command has a first step: EXPORT, if not rejected, has a slot to read. -/
theorem exec_accept_next {s : State} (hpos : s.status.configured = true → 0 < s.regs.capacity.toNat) (w : Word)
    (i : Instr) : ∃ t, exec i (s.accept w) = .next t := by
  refine (exec_total i (s.accept w)).resolve_right ?_
  rintro ⟨-, hr, -, hle, -⟩
  exact absurd hle (Nat.not_le.mpr (hpos ((s.accept w).rejectedAtStart_eq_false_iff.mp hr rfl)))

/-- Settles O8: an illegal word by `State.sequencerStep_illegal`, a command by `ExecCase.err_of_firstStep`. -/
theorem firstStepReportsTheFirstErrorThatApplies : Obligations.FirstStepReportsTheFirstErrorThatApplies := by
  intro s w hpos
  rcases hd : decode w with i | why
  · obtain ⟨t, ht⟩ := exec_accept_next hpos w i
    exact ⟨t, ((s.accept w).sequencerStep_command i rfl hd).trans ht, (exec_cases ht).err_of_firstStep rfl rfl⟩
  · exact ⟨_, State.sequencerStep_illegal (s := s.accept w) rfl hd, rfl⟩

/-! ### Progress -/

/-- From a state of the invariant the running command has a step: EXPORT is not past its last slot with no byte to send. -/
theorem exec_next_of_inv {s : State} {i : Instr} (hinv : s.Inv) (hp : s.seq.phase = .run)
    (hd : decode s.lat.op = .command i) : ∃ t, exec i s = .next t := by
  obtain ⟨hs, hc⟩ := s.inv_iff.mp hinv
  refine (exec_total i s).resolve_right ?_
  rintro ⟨rfl, hr, hb, hle, -⟩
  obtain ⟨-, -, hlt⟩ := State.exportText_inRange hs (hc.run hp) hd hr
  exact absurd hle (Nat.not_le.mpr (hlt hb))

/-- A step of the running command completes it, counts a slot or sends a byte, unless it waits for the sink. -/
theorem ExecCase.moves {s t : State} {i : Instr} (h : ExecCase s i t) (hinv : s.Inv) (hp : s.seq.phase = .run)
    (hd : decode s.lat.op = .command i) (hwait : s.awaitingSink = false) :
    t.seq.phase = .idle ∨ t.seq.i.toNat = s.seq.i.toNat + 1 ∨
      (t.seq.i = s.seq.i ∧ t.seq.bytes.length + 1 = s.seq.bytes.length) := by
  obtain ⟨hs, hc⟩ := s.inv_iff.mp hinv
  cases h with
  | fills hr => exact .inr (.inl (succ_toNat_of_lt (State.fillz_inRange hs (hc.run hp) hd hr).2))
  | exportReads _ _ hlt => exact .inr (.inl (succ_toNat_of_lt hlt))
  | exportWaits b rest hb ha => simp [State.awaitingSink, hp, hd, hb, ha] at hwait
  | exportSends b rest answers hb => exact .inr (.inr ⟨rfl, by rw [hb]; rfl⟩)
  | rejected | configFails | configInstalls | writes | reads | outOfRange | fillsLast | exportFails | exportEnds =>
    exact .inl rfl

/-- Settles O59: an illegal word completes, and a command has a step (`exec_next_of_inv`) that moves (`ExecCase.moves`). -/
theorem runningSequencerMoves : Obligations.RunningSequencerMoves := by
  intro s hinv hp hwait
  rcases hd : decode s.lat.op with i | why
  · obtain ⟨t, ht⟩ := exec_next_of_inv hinv hp hd
    exact ⟨t, (s.sequencerStep_command i hp hd).trans ht, (exec_cases ht).moves hinv hp hd hwait⟩
  · exact ⟨_, State.sequencerStep_illegal hp hd, .inl rfl⟩

end Sys2Proof.Machine
end

section
/-! The running command and the operand registers (40_host_port.md R115): the cases of `ExecCase` are exactly the steps of a
command, and each is a step again when OPA, OPB and OPC are changed. -/

namespace Sys2Proof.Machine

/-! ### A step of a command is one of its cases -/

/-- A step of FILLZ that is not rejected, with the next state written out (43_bulk.md R170). -/
theorem exec_fillz_eq {s : State} (hr : s.rejectedAtStart = false) :
    exec .fillz s = .next
      (if (s.seq.i + 1).toNat = s.regs.capacity.toNat then
        { s with
          mem := (s.memWrite s.bulkAddr 0).mem
          draws := (s.memWrite s.bulkAddr 0).draws
          regs := { s.regs with cursor := 0 }
          status := { s.status with busy := false, err := .ok }
          seq := { s.seq with i := s.seq.i + 1, phase := .idle } }
      else
        { s with
          mem := (s.memWrite s.bulkAddr 0).mem
          draws := (s.memWrite s.bulkAddr 0).draws
          seq := { s.seq with i := s.seq.i + 1 } }) := by
  refine congrArg Host.Outcome.next ((if_neg (ne_true_of_eq_false hr)).trans ?_)
  rw [s.memWrite_frame s.bulkAddr 0]
  rfl

/-- While a byte is queued EXPORT takes a byte step. -/
theorem exec_exportText_byte {s : State} {b : Byte} {rest : List Byte} (hb : s.seq.bytes = b :: rest) :
    exec .exportText s = .next (s.exportByte b rest) := by
  simp [exec, execExport, State.rejectedAtStart, State.firstStep, hb]

/-- With no byte queued EXPORT reads a slot, or has no step. -/
theorem exec_exportText_slot {s : State} (hr : s.rejectedAtStart = false) (hb : s.seq.bytes = []) :
    exec .exportText s =
      if s.seq.i.toNat < s.regs.capacity.toNat then .next s.exportRead else .fault .noEnabledStep := by
  simp only [exec, execExport, hr, hb, Bool.false_eq_true, if_false]

/-- The converse of `exec_cases`. -/
theorem ExecCase.exec_eq {s t : State} {i : Instr} (h : ExecCase s i t) : exec i s = .next t := by
  cases h with
  | rejected _ hi hc hf => exact exec_rejected hi hc hf
  | configFails ha => exact congrArg _ (if_pos ha)
  | configInstalls ha => exact congrArg _ (if_neg ha)
  | writes hc => exact exec_write_eq hc
  | reads _ a hc h =>
    have hi : (i = .readi ∧ a = s.indexAddr) ∨ (i = .reado ∧ a = s.offsetAddr) ∨
        (i = .readc ∧ a = s.indexAddr ∧ s.lat.a.toNat < s.regs.capacity.toNat) := by
      simpa only [State.indexInRange, decide_eq_true_eq] using h
    rw [exec_eq_readInto hc hi, s.readInto_eq]
  | outOfRange hc hr => exact congrArg _ ((if_pos hc).trans (if_neg (ne_true_of_eq_false hr)))
  | fills hr hl => rw [exec_fillz_eq hr, if_neg hl]
  | fillsLast hr hl => rw [exec_fillz_eq hr, if_pos hl]
  | exportReads hr hb hl => rw [exec_exportText_slot hr hb, if_pos hl, s.exportRead_eq]
  | exportWaits b rest hb ha => rw [exec_exportText_byte hb, State.exportByte, State.sinkPut, ha]
  | exportFails b rest answers hb ha =>
    rw [exec_exportText_byte hb, State.exportByte, State.sinkPut, ha]
    rfl
  | exportSends b rest answers hb ha hl =>
    rw [exec_exportText_byte hb, State.exportByte, State.sinkPut, ha]
    exact congrArg _ (if_neg (by simpa using hl))
  | exportEnds b answers hb ha hl =>
    rw [exec_exportText_byte hb, State.exportByte, State.sinkPut, ha]
    exact congrArg _ (if_pos (by simpa using hl))

/-! ### Changed operand registers -/

/-- The state with its operand registers changed. -/
def State.withOperands (x y z : Word) (s : State) : State :=
  { s with regs := { s.regs with opa := x, opb := y, opc := z } }

section

variable (x y z : Word) (s : State)

theorem State.memWrite_withOperands (a v : Word) :
    (s.withOperands x y z).memWrite a v = (s.memWrite a v).withOperands x y z := by
  rw [State.memWrite, State.memWrite, apply_ite (State.withOperands x y z)]
  rfl

theorem State.memRead_withOperands (a : Word) :
    (s.withOperands x y z).memRead a = ((s.memRead a).1, (s.memRead a).2.withOperands x y z) := by
  rcases s.memRead_cases a with ⟨hw, he, h⟩ | ⟨hw, he, h⟩ | ⟨hw, h⟩ <;> rw [h]
  · exact State.memRead_of_byteExact hw he
  · exact State.memRead_of_misaligned hw he
  · exact State.memRead_of_outside hw

variable {s}

/-- Each case of a step is the same case from the changed state. -/
theorem ExecCase.withOperands {t : State} {i : Instr} (h : ExecCase s i t) :
    ExecCase (s.withOperands x y z) i (t.withOperands x y z) := by
  cases h with
  | rejected _ hi hc hf => exact .rejected i hi hc hf
  | configFails ha => exact .configFails ha
  | configInstalls ha => exact .configInstalls ha
  | writes hc =>
    have key := ExecCase.writes (s := s.withOperands x y z) hc
    rw [State.memWrite_withOperands] at key
    exact key
  | reads _ a hc hi =>
    have key := ExecCase.reads (s := s.withOperands x y z) i a hc hi
    rw [State.memRead_withOperands] at key
    exact key
  | outOfRange hc hr => exact .outOfRange hc hr
  | fills hr hl =>
    have key := ExecCase.fills (s := s.withOperands x y z) hr hl
    rw [State.memWrite_withOperands] at key
    exact key
  | fillsLast hr hl =>
    have key := ExecCase.fillsLast (s := s.withOperands x y z) hr hl
    rw [State.memWrite_withOperands] at key
    exact key
  | exportReads hr hb hl =>
    have key := ExecCase.exportReads (s := s.withOperands x y z) hr hb hl
    rw [State.memRead_withOperands] at key
    exact key
  | exportWaits b rest hb ha => exact .exportWaits b rest hb ha
  | exportFails b rest answers hb ha => exact .exportFails b rest answers hb ha
  | exportSends b rest answers hb ha hl => exact .exportSends b rest answers hb ha hl
  | exportEnds b answers hb ha hl => exact .exportEnds b answers hb ha hl

end

/-- A step of a command passes the change of the operand registers on. -/
theorem exec_withOperands (x y z : Word) (i : Instr) (s : State) :
    exec i (s.withOperands x y z) = mapNext (State.withOperands x y z) (exec i s) := by
  rcases exec_total i s with ⟨t, ht⟩ | ⟨rfl, hr, hb, hle, hfault⟩
  · rw [ht, ((exec_cases ht).withOperands x y z).exec_eq]
    rfl
  · rw [hfault, exec_exportText_slot (s := s.withOperands x y z) hr hb]
    exact if_neg (Nat.not_lt.mpr hle)

/-- Settles O52: a command by `exec_withOperands`; an idle sequencer and an illegal word change no register. -/
theorem runningCommandReadsOnlyTheLatches : Obligations.RunningCommandReadsOnlyTheLatches := by
  intro s x y z
  show (s.withOperands x y z).sequencerStep = mapNext (State.withOperands x y z) s.sequencerStep
  rcases hp : s.seq.phase with _ | _
  · simp only [State.sequencerStep, State.withOperands, hp, mapNext]
  · rcases hd : decode s.lat.op with i | why
    · rw [s.sequencerStep_command i hp hd, (s.withOperands x y z).sequencerStep_command i hp hd]
      exact exec_withOperands x y z i s
    · rw [State.sequencerStep_illegal hp hd, State.sequencerStep_illegal (s := s.withOperands x y z) hp hd]
      rfl

end Sys2Proof.Machine
end

section
/-! Proofs for CONFIG (41_construction.md R130, R131): both branches with the whole next state, and what ends a time of
CONFIGURED = 0. -/

namespace Sys2Proof.Machine

theorem exec_config_destroys {s : State} (ha : s.lat.a.toNat = 0) :
    exec .config s = .next { s with
      status := { s.status with busy := false, configured := false, err := .invalidConfiguration }
      seq := { s.seq with phase := .idle } } :=
  (ExecCase.configFails (BitVec.eq_of_toNat_eq ha)).exec_eq

/-- Out of contract, with 20_memory.md R73 written out. -/
theorem not_configInContract_iff (wordBytes : Nat) (capacity base increment : Word) :
    (!configInContract wordBytes capacity base increment) = true ↔
      increment.toNat < wordBytes ∨ base.toNat + increment.toNat * capacity.toNat > 2 ^ 32 := by
  rw [Bool.not_eq_true', ← Bool.not_eq_true, configInContract, Bool.and_eq_true, decide_eq_true_eq, decide_eq_true_eq]
  omega

/-- The mark after an installation: an out-of-contract configuration sets it (41_construction.md R132). -/
theorem mark_or_not_configInContract (mark : Bool) (wordBytes : Nat) (capacity base increment : Word) :
    (mark || !configInContract wordBytes capacity base increment) =
      if increment.toNat < wordBytes ∨ base.toNat + increment.toNat * capacity.toNat > 2 ^ 32 then true else mark := by
  have hout := not_configInContract_iff wordBytes capacity base increment
  split
  case isTrue h => rw [hout.mpr h, Bool.or_true]
  case isFalse h => rw [Bool.eq_false_iff.mpr (mt hout.mp h), Bool.or_false]

/-- Settles O19: the two cases of CONFIG in `ExecCase`, with the mark by `mark_or_not_configInContract`. -/
theorem configInstallsTheInstance : Obligations.ConfigInstallsTheInstance := by
  refine ⟨decode_encode .config, fun _ => exec_config_destroys, fun s ha => ?_⟩
  rw [← mark_or_not_configInContract]
  exact (ExecCase.configInstalls (BitVec.toNat_ne.mpr ha)).exec_eq

/-- Settles O20: the destruction by `exec_config_destroys`, the rejections by `exec_rejected`, and the one event that sets
CONFIGURED by `step_configured_iff`. -/
theorem configWithCapacityZeroDestroysTheInstance : Obligations.ConfigWithCapacityZeroDestroysTheInstance := by
  refine ⟨fun _ => exec_config_destroys, fun s i hc hi => ?rejected, fun s t h hc ht => ?configured⟩
  case rejected =>
    have hstep : (s.accept (encode i)).sequencerStep = .next ((s.accept (encode i)).complete .notConfigured) :=
      ((s.accept (encode i)).sequencerStep_command i rfl (decode_encode i)).trans (exec_rejected hi hc fun _ => rfl)
    exact ⟨_, hstep, rfl, rfl, rfl, rfl⟩
  case configured =>
    exact ((step_configured_iff h).mp ht).resolve_right fun ⟨hc', _⟩ => nomatch hc.symm.trans hc'

end Sys2Proof.Machine
end

section
/-! Bring-up is not observable (41_construction.md R134): the record of it passes through every step of the sequencer and of the
host unread. -/

namespace Sys2Proof.Machine

variable (s : State) (b : Bool)

/-! ### The sequencer -/

theorem State.memWrite_setWindowReady (a v : Word) :
    (s.setWindowReady b).memWrite a v = (s.memWrite a v).setWindowReady b := by
  rw [State.memWrite, State.memWrite, apply_ite (State.setWindowReady · b)]
  rfl

theorem State.memRead_setWindowReady (a : Word) :
    (s.setWindowReady b).memRead a = ((s.memRead a).1, (s.memRead a).2.setWindowReady b) := by
  rcases s.memRead_cases a with ⟨hw, he, h⟩ | ⟨hw, he, h⟩ | ⟨hw, h⟩ <;> rw [h]
  · exact State.memRead_of_byteExact hw he
  · exact State.memRead_of_misaligned hw he
  · exact State.memRead_of_outside hw

variable {s}

/-- Each case of a step of a command is the same case under another record. -/
theorem ExecCase.setWindowReady {t : State} {i : Instr} (h : ExecCase s i t) :
    ExecCase (s.setWindowReady b) i (t.setWindowReady b) := by
  have hwrite := s.memWrite_setWindowReady b
  have hread := s.memRead_setWindowReady b
  cases h with
  | rejected _ hi hc hf => exact .rejected i hi hc hf
  | configFails ha => exact .configFails ha
  | configInstalls ha => exact .configInstalls ha
  | writes hc =>
    have key := ExecCase.writes (s := s.setWindowReady b) hc
    rwa [hwrite] at key
  | reads _ a hc hi =>
    have key := ExecCase.reads (s := s.setWindowReady b) i a hc hi
    rwa [hread] at key
  | outOfRange hc hr => exact .outOfRange hc hr
  | fills hr hl =>
    have key := ExecCase.fills (s := s.setWindowReady b) hr hl
    rwa [hwrite] at key
  | fillsLast hr hl =>
    have key := ExecCase.fillsLast (s := s.setWindowReady b) hr hl
    rwa [hwrite] at key
  | exportReads hr hb hl =>
    have key := ExecCase.exportReads (s := s.setWindowReady b) hr hb hl
    rwa [hread] at key
  | exportWaits c rest hb ha => exact .exportWaits c rest hb ha
  | exportFails c rest answers hb ha => exact .exportFails c rest answers hb ha
  | exportSends c rest answers hb ha hl => exact .exportSends c rest answers hb ha hl
  | exportEnds c answers hb ha hl => exact .exportEnds c answers hb ha hl

variable (s)

theorem exec_setWindowReady (i : Instr) :
    exec i (s.setWindowReady b) = mapNext (State.setWindowReady · b) (exec i s) := by
  rcases exec_total i s with ⟨t, ht⟩ | ⟨rfl, hr, hq, hle, hfault⟩
  · rw [ht, ((exec_cases ht).setWindowReady b).exec_eq]
    rfl
  · rw [hfault, exec_exportText_slot (s := s.setWindowReady b) hr hq]
    exact if_neg (Nat.not_lt.mpr hle)

theorem State.sequencerStep_setWindowReady :
    (s.setWindowReady b).sequencerStep = mapNext (State.setWindowReady · b) s.sequencerStep := by
  rcases hp : s.seq.phase with _ | _
  · simp only [State.sequencerStep, State.setWindowReady_seq, hp, mapNext]
  · rcases hd : decode s.lat.op with i | why
    · rw [s.sequencerStep_command i hp hd, (s.setWindowReady b).sequencerStep_command i hp hd]
      exact exec_setWindowReady s b i
    · rw [State.sequencerStep_illegal hp hd, State.sequencerStep_illegal (s := s.setWindowReady b) hp hd]
      rfl

/-! ### The host -/

theorem State.hostRead_setWindowReady (r : HostReg) : (s.setWindowReady b).hostRead r = s.hostRead r := by
  cases r <;> rfl

theorem State.hostWrite_setWindowReady (r : HostReg) (d : Word) :
    (s.setWindowReady b).hostWrite r d = (s.hostWrite r d).setWindowReady b := by
  cases r
  case cmd =>
    simp only [State.hostWrite, State.cmdWrite, apply_ite (State.setWindowReady · b)]
    rfl
  case status | opa | opb | opc | result | capacity | base | increment | cursor | duration | params | reserved => rfl

theorem State.hostStep_setWindowReady :
    (s.setWindowReady b).hostStep = mapNext (State.setWindowReady · b) s.hostStep := by
  rcases hs : s.host.script with _ | ⟨a | _, rest⟩
  case nil => simp only [State.hostStep, State.setWindowReady_host, hs, mapNext]
  case cons.access =>
    have hs' : (s.setWindowReady b).host.script = .access a :: rest := hs
    rcases hr : accessReg s.params.hostBase a with _ | r
    · rw [State.hostStep_refused hs hr, State.hostStep_refused hs' hr]
      rfl
    · rcases hk : a.kind with _ | d
      · rw [State.hostStep_read hs hr hk, State.hostStep_read hs' hr hk, State.hostRead_setWindowReady]
        rfl
      · rw [State.hostStep_write hs hr hk, State.hostStep_write hs' hr hk]
        exact congrArg _ ((s.setHost { s.host with script := rest }).hostWrite_setWindowReady b r d)
  case cons.wait =>
    simp only [State.hostStep, State.setWindowReady_host, State.setWindowReady_status, hs]
    by_cases hb : s.status.busy = true
    · simp only [hb, if_true]; rfl
    · simp only [hb, if_false, Bool.false_eq_true]; rfl

/-- Settles O55: the sequencer by its cases (`ExecCase.setWindowReady`), the host by the line of its script. -/
theorem bringUpIsNotObservable : Obligations.BringUpIsNotObservable :=
  fun s b => ⟨s.sequencerStep_setWindowReady b, s.hostStep_setWindowReady b⟩

end Sys2Proof.Machine
end

section
/-! Proofs for WRITE (42_word_access.md R140, R142; 20_memory.md R63, R66): the word at the cursor's slot, the frame, and the
advance of the cursor; and for the two other statements about one access, READC's rejection (R161) and the agreement of READI
with READO (R151). -/

namespace Sys2Proof.Machine

/-! ### The cursor -/

theorem State.nextCursor_eq (s : State) :
    s.nextCursor = if s.regs.cursor.toNat + 1 = s.regs.capacity.toNat then 0 else s.regs.cursor + 1 := by
  simp only [State.nextCursor, BitVec.ofNat_add, BitVec.ofNat_toNat, BitVec.setWidth_eq, BitVec.ofNat_eq_ofNat]

/-- Advancing the cursor counts modulo CAPACITY. -/
theorem State.nextCursor_toNat {s : State} (h : s.regs.cursor.toNat < s.regs.capacity.toNat) :
    s.nextCursor.toNat = (s.regs.cursor.toNat + 1) % s.regs.capacity.toNat := by
  have hcap := s.regs.capacity.isLt
  rw [State.nextCursor]
  split
  next hlast => rw [hlast, Nat.mod_self]; rfl
  next hlast => rw [BitVec.toNat_ofNat, Nat.mod_eq_of_lt (by omega), Nat.mod_eq_of_lt (by omega)]

/-! ### One WRITE -/

/-- From `s` to `t` the word `v` was written at `a`, cut to `WORD_BITS`: its bytes are in place if the access is byte-exact,
and no byte outside those the access touches has changed. -/
def storesWord (s t : State) (a v : Word) : Prop :=
  memFrame s t a ∧
    (s.byteExact a = true → ∀ k : Nat, k < s.wordBytes →
      t.byteAt (a + BitVec.ofNat 32 k) = v.extractLsb' (8 * k) 8)

theorem State.memWrite_storesWord {s : State} (hm : s.mem.wf) (a v : Word) :
    storesWord s (s.memWrite a (truncTo s.params.wordBits v)) a v := by
  refine ⟨s.memWrite_memFrame hm a _, fun he k hk => ?_⟩
  have hdist : (a + BitVec.ofNat 32 k - a).toNat = k := add_sub_toNat a k (by have := s.wordBytes_le; omega)
  rw [s.memWrite_byte hm a _ _ he (by omega), hdist, s.truncTo_byte v k hk]

/-- Settles O24: the next state is `exec_write_eq`, its memory `State.memWrite_storesWord`. -/
theorem writeStoresAtTheCursorAndAdvances : Obligations.WriteStoresAtTheCursorAndAdvances := by
  refine ⟨decode_encode .write, fun s hm hc => ⟨_, exec_write_eq hc, ?_, ?_⟩⟩
  · rw [s.nextCursor_eq]
  · obtain ⟨hframe, hbytes⟩ := State.memWrite_storesWord hm s.writeAddr s.lat.a
    exact ⟨hbytes, hframe⟩

/-! ### READC out of range, READI and READO -/

/-- Settles O28: the rejection is a case of the step (`ExecCase.outOfRange`). -/
theorem readcRejectsAnIndexOutOfRange : Obligations.ReadcRejectsAnIndexOutOfRange :=
  ⟨decode_encode .readc, fun _ hc hle => (ExecCase.outOfRange hc (decide_eq_false (Nat.not_lt.mpr hle))).exec_eq⟩

@[simp] theorem State.called_offsetAddr (s : State) (w a : Word) : (s.called w a).offsetAddr = s.regs.base + a := rfl

/-- A called READO of a byte-exact access inside the window gives the word there, and leaves the memory. -/
theorem State.call_reado {s : State} {off : Word} (hc : s.status.configured = true) (hb : s.status.busy = false)
    (hw : s.inWindow (s.regs.base + off) = true) (he : s.byteExact (s.regs.base + off) = true) :
    ∃ t, s.call (encode .reado) off = .next t ∧
      t.regs.result = BitVec.ofNat 32 (s.mem.load (s.regs.base + off) s.wordBytes) ∧ t.mem = s.mem := by
  refine ⟨_, (s.call_eq_exec .reado off hb).trans (exec_eq_readInto hc (.inr (.inl ⟨rfl, rfl⟩))), ?_⟩
  rw [State.readInto_eq, State.called_offsetAddr, State.memRead_of_byteExact (by simpa using hw) (by simpa using he)]
  exact ⟨rfl, rfl⟩

theorem State.base_add_offset (s : State) (i : Nat) :
    s.regs.base + BitVec.ofNat 32 (s.regs.increment.toNat * i) = s.addrOf i := by
  rw [State.addrOf, BitVec.ofNat_add, BitVec.ofNat_toNat, BitVec.setWidth_eq]

/-- Settles O30: the offset INCREMENT × i is slot i's (`State.base_add_offset`), so both calls read that slot. -/
theorem indexedAndOffsetReadsAgree : Obligations.IndexedAndOffsetReadsAgree := by
  intro s i hc hb hw hi he
  have hin : s.inWindow (s.addrOf i) = true := slotsLieInsideTheWindow s i hw hi
  have hindex : (BitVec.ofNat 32 i).toNat = i := Nat.mod_eq_of_lt (hi.trans s.regs.capacity.isLt)
  obtain ⟨t, ht, hresult, -, hmem⟩ := State.call_readi (i := BitVec.ofNat 32 i) hc hb (by rwa [hindex]) (by rwa [hindex])
  rw [hindex] at hresult
  have haddr := s.base_add_offset i
  obtain ⟨u, hu, huresult, humem⟩ := State.call_reado hc hb (haddr ▸ hin) (haddr ▸ he)
  rw [haddr] at huresult
  exact ⟨t, u, ht, hu, hresult.trans huresult.symm, hresult, hmem, humem⟩

end Sys2Proof.Machine
end

section
/-! Proofs for a run of WRITEs (42_word_access.md R141): what the block is like between two WRITEs of a run that began with
CURSOR = 0, what the next one does to it, and the two statements by induction on the run, one WRITE at its end at a time. -/

namespace Sys2Proof.Machine

/-! ### Between two WRITEs -/

/-- The block between two WRITEs, `n` of them made since the state `s`, where CURSOR was 0. -/
structure State.AfterWrites (s : State) (n : Nat) (t : State) : Prop where
  params : t.params = s.params
  wf : t.mem.wf
  configured : t.status.configured = true
  notBusy : t.status.busy = false
  capacity : t.regs.capacity = s.regs.capacity
  base : t.regs.base = s.regs.base
  increment : t.regs.increment = s.regs.increment
  result : t.regs.result = s.regs.result
  cursor : t.regs.cursor.toNat = n % s.regs.capacity.toNat

namespace State.AfterWrites

section

variable {s t : State} {n : Nat} (h : s.AfterWrites n t)
include h

theorem addrOf (i : Nat) : t.addrOf i = s.addrOf i := by rw [State.addrOf, h.base, h.increment, State.addrOf]

theorem wordBytes : t.wordBytes = s.wordBytes := congrArg (·.wordBytes.count) h.params

theorem byteExact (a : Word) : t.byteExact a = s.byteExact a := by
  simp only [State.byteExact, State.aligned, h.wordBytes, h.params]

/-- The next WRITE goes to slot `n mod CAPACITY` of `s`. -/
theorem writeAddr : t.writeAddr = s.addrOf (n % s.regs.capacity.toNat) := by
  rw [State.writeAddr, h.addrOf, h.cursor]

theorem slotWord_toNat (i : Nat) : (t.slotWord i).toNat = t.mem.load (s.addrOf i) s.wordBytes := by
  rw [t.slotWord_toNat, h.addrOf, h.wordBytes]

/-- The next WRITE of the run. -/
theorem call_write (hpos : 0 < s.regs.capacity.toNat) (v : Word) :
    ∃ u, t.call (encode .write) v = .next u ∧ s.AfterWrites (n + 1) u ∧ u.status.err = .ok ∧
      storesWord t u (s.addrOf (n % s.regs.capacity.toNat)) v := by
  have hlt : t.regs.cursor.toNat < t.regs.capacity.toNat := by
    rw [h.cursor, h.capacity]
    exact Nat.mod_lt _ hpos
  have hcursor : t.nextCursor.toNat = (n + 1) % s.regs.capacity.toNat := by
    rw [State.nextCursor_toNat hlt, h.cursor, h.capacity, Nat.mod_add_mod]
  refine ⟨_, (t.call_eq_exec .write v h.notBusy).trans (exec_write_eq h.configured), ?_, rfl, ?_⟩
  · exact { h with wf := (t.called (encode .write) v).memWrite_wf h.wf _ _, notBusy := rfl, cursor := hcursor }
  · rw [← h.writeAddr]
    exact State.memWrite_storesWord (s := t.called (encode .write) v) h.wf t.writeAddr v

end

end State.AfterWrites

/-! ### The run -/

theorem State.callWrites_concat {s t u : State} {vs : List Word} {v : Word} (ht : State.callWrites vs s = .next t)
    (hu : t.call (encode .write) v = .next u) : State.callWrites (vs ++ [v]) s = .next u := by
  rw [State.callWrites_append vs [v] s t ht]
  simp only [State.callWrites, hu]

theorem State.afterWrites_zero {s : State} (hm : s.mem.wf) (hc : s.status.configured = true)
    (hb : s.status.busy = false) (hcur : s.regs.cursor = 0) : s.AfterWrites 0 s :=
  ⟨rfl, hm, hc, hb, rfl, rfl, rfl, rfl, by rw [hcur, Nat.zero_mod]; rfl⟩

/-- The induction on a run of WRITEs from CURSOR = 0: what holds at its start and is kept by each further WRITE holds at its
end, which is between two WRITEs. -/
theorem State.callWrites_induction {s : State} (h₀ : s.AfterWrites 0 s) (hpos : 0 < s.regs.capacity.toNat)
    {P : List Word → State → Prop} (hstart : P [] s)
    (hwrite : ∀ vs v t u, s.AfterWrites vs.length t → s.AfterWrites (vs.length + 1) u → u.status.err = .ok →
      storesWord t u (s.addrOf (vs.length % s.regs.capacity.toNat)) v → P vs t → P (vs ++ [v]) u)
    (vs : List Word) : ∃ t, State.callWrites vs s = .next t ∧ s.AfterWrites vs.length t ∧ P vs t := by
  induction vs using List.reverseRecOn with
  | nil => exact ⟨s, rfl, h₀, hstart⟩
  | append_singleton vs v ih =>
    obtain ⟨t, ht, h, hP⟩ := ih
    obtain ⟨u, hu, h', herr, hstores⟩ := h.call_write hpos v
    refine ⟨u, State.callWrites_concat ht hu, ?_, hwrite vs v t u h h' herr hstores hP⟩
    rwa [List.length_append, List.length_singleton]

/-- Settles O32: the run ends between two WRITEs (`State.callWrites_induction`), and the next one is
`State.AfterWrites.call_write`. -/
theorem writeSequenceLaw : Obligations.WriteSequenceLaw := by
  intro s vs hm hc hb hcur hpos
  obtain ⟨t, ht, h, herr⟩ := State.callWrites_induction (State.afterWrites_zero hm hc hb hcur) hpos
    (P := fun vs t => t.status.err = if vs = [] then s.status.err else .ok)
    rfl (fun vs v _ _ _ _ herr _ _ => by rw [herr, if_neg (List.concat_ne_nil v vs)]) vs
  refine ⟨t, ht, h.cursor, h.capacity, h.base, h.increment, h.result, herr, fun v => ?_⟩
  obtain ⟨u, hu, -, -, hframe, hbytes⟩ := h.call_write hpos v
  rw [h.byteExact, h.wordBytes] at hbytes
  exact ⟨u, State.callWrites_concat ht hu, hframe, hbytes⟩

/-! ### The last lap -/

/-- A WRITE to a byte-exact slot: a load of the slot gives the word, cut to `WORD_BITS`. -/
theorem storesWord.load_same {s t : State} {a v : Word} (h : storesWord s t a v) (he : s.byteExact a = true) :
    t.mem.load a s.wordBytes = v.toNat % 2 ^ s.params.wordBits :=
  s.load_of_bytes t.mem a v (h.2 he)

/-- A WRITE to a byte-exact slot: a load of bytes apart from the slot's gives what it gave. -/
theorem storesWord.load_apart {s t : State} {a b v : Word} (h : storesWord s t a v) (he : s.byteExact a = true)
    (hapart : ∀ x, inBytes b s.wordBytes x → ¬ inBytes a s.wordBytes x) :
    t.mem.load b s.wordBytes = s.mem.load b s.wordBytes := by
  refine Memory.load_congr _ _ _ _ (fun x hx => h.1 x ?_) (by have := s.wordBytes_le; omega)
  rw [State.touched, if_pos he]
  exact hapart x hx

/-- Two positions less than CAPACITY apart have different slots. -/
theorem mod_ne_mod_of_lt {k n c : Nat} (hk : k < n) (hn : n < k + c) : k % c ≠ n % c := by
  intro heq
  have hzero : (n - k) % c = 0 := Nat.sub_mod_eq_zero_of_mod_eq heq.symm
  rw [Nat.mod_eq_of_lt (by omega)] at hzero
  omega

theorem State.slots_apart {s : State} (hw : s.windowInContract) {i j : Nat} (hi : i < s.regs.capacity.toNat)
    (hj : j < s.regs.capacity.toNat) (hij : i ≠ j) (x : Word) (hx : inBytes (s.addrOf i) s.wordBytes x) :
    ¬ inBytes (s.addrOf j) s.wordBytes x := fun hx' => by
  obtain ⟨hunique, hindex⟩ := slotsDoNotOverlap
  obtain ⟨hinc, hi'⟩ := hindex s i hw hi
  exact hij (hunique s i j x hinc hi' (hindex s j hw hj).2 hx hx')

/-- In `t`, after the WRITEs of `vs`, each of the last CAPACITY words is in its slot. -/
def State.HoldsLastLap (s : State) (vs : List Word) (t : State) : Prop :=
  ∀ (k : Nat) (h : k < vs.length), vs.length ≤ k + s.regs.capacity.toNat →
    (t.slotWord (k % s.regs.capacity.toNat)).toNat = vs[k].toNat % 2 ^ s.params.wordBits

/-- One more WRITE puts its word in its slot, and leaves the CAPACITY - 1 words before it, whose slots are others. -/
theorem State.HoldsLastLap.concat {s t u : State} {vs : List Word} {v : Word} (hlap : s.HoldsLastLap vs t)
    (h : s.AfterWrites vs.length t) (h' : s.AfterWrites (vs.length + 1) u)
    (hstores : storesWord t u (s.addrOf (vs.length % s.regs.capacity.toNat)) v)
    (hpos : 0 < s.regs.capacity.toNat) (hw : s.windowInContract) (hexact : s.slotsByteExact) :
    s.HoldsLastLap (vs ++ [v]) u := by
  intro k hk hle
  have hslot (i : Nat) : i % s.regs.capacity.toNat < s.regs.capacity.toNat := Nat.mod_lt i hpos
  have he : t.byteExact (s.addrOf (vs.length % s.regs.capacity.toNat)) = true :=
    (h.byteExact _).trans (hexact _ (hslot _))
  rw [List.length_append, List.length_singleton] at hk hle
  rw [h'.slotWord_toNat, ← h.wordBytes]
  rcases Nat.lt_succ_iff_lt_or_eq.mp hk with hk | rfl
  · have hne := mod_ne_mod_of_lt hk (c := s.regs.capacity.toNat) (by omega)
    rw [List.getElem_append_left hk, ← hlap k hk (by omega), h.slotWord_toNat, ← h.wordBytes]
    refine hstores.load_apart he ?_
    rw [h.wordBytes]
    exact State.slots_apart hw (hslot k) (hslot _) hne
  · rw [List.getElem_concat_length rfl, hstores.load_same he, h.params]

/-- Settles O33: by induction on the run, with `State.HoldsLastLap.concat` for each WRITE. -/
theorem circularBufferHoldsTheLastLap : Obligations.CircularBufferHoldsTheLastLap := by
  intro s vs hm hc hb hcur hpos hw hexact
  obtain ⟨t, ht, -, hlap⟩ := State.callWrites_induction (State.afterWrites_zero hm hc hb hcur) hpos
    (P := s.HoldsLastLap) (fun k hk => absurd hk (Nat.not_lt_zero k))
    (fun _ _ _ _ h h' _ hstores hlap => hlap.concat h h' hstores hpos hw hexact) vs
  exact ⟨t, ht, hlap⟩

end Sys2Proof.Machine
end

section
/-! Proofs for EXPORT's tokens (43_bulk.md R177 to R179): the digits of a word as a list of numbers, then as bytes. -/

namespace Sys2Proof.Machine

/-! ### Digits -/

theorem hexDigits_length (d v : Nat) : (hexDigits d v).length = d := by
  induction d with
  | zero => rfl
  | succ d ih => rw [hexDigits, List.length_cons, ih]

/-- The `j`-th digit from the top of `d` digits. -/
theorem hexDigits_getElem? {d j : Nat} (v : Nat) (hj : j < d) :
    (hexDigits d v)[j]? = some (v / 16 ^ (d - 1 - j) % 16) := by
  induction d generalizing j with
  | zero => exact absurd hj (Nat.not_lt_zero j)
  | succ d ih =>
    cases j with
    | zero => rfl
    | succ j =>
      rw [hexDigits, List.getElem?_cons_succ, ih (Nat.succ_lt_succ_iff.mp hj)]
      congr 4
      omega

theorem hexDigits_zero (d : Nat) : hexDigits d 0 = List.replicate d 0 := by
  induction d with
  | zero => rfl
  | succ d ih => rw [hexDigits, ih, Nat.zero_div, Nat.zero_mod, List.replicate_succ]

theorem lt_of_mem_hexDigits {d v x : Nat} (hx : x ∈ hexDigits d v) : x < 16 := by
  induction d with
  | zero => exact absurd hx List.not_mem_nil
  | succ d ih =>
    rcases List.mem_cons.mp hx with rfl | hx
    · exact Nat.mod_lt _ (by decide)
    · exact ih hx

/-- If every digit is 0, so is the number the digits show. -/
theorem mod_eq_zero_of_hexDigits {d v : Nat} (h : ∀ x ∈ hexDigits d v, x = 0) : v % 16 ^ d = 0 := by
  induction d with
  | zero => exact Nat.mod_one v
  | succ d ih =>
    obtain ⟨htop, hrest⟩ := List.forall_mem_cons.mp h
    rw [Nat.mod_pow_succ, htop, ih hrest, Nat.mul_zero]

/-- Digits that are not all 0 are zeros followed by the digits without leading zeros, which begin with another digit. -/
theorem exists_zeros_append_withoutLeadingZeros {ds : List Nat} (h : ∃ x ∈ ds, x ≠ 0) :
    ∃ n y ys, y ≠ 0 ∧ withoutLeadingZeros ds = y :: ys ∧ ds = List.replicate n 0 ++ y :: ys := by
  induction ds with
  | nil => simp at h
  | cons d ds ih =>
    by_cases hd : d = 0
    · subst hd
      obtain ⟨n, y, ys, hy, hw, hds⟩ := ih (by simpa using h)
      exact ⟨n + 1, y, ys, hy, hw, congrArg (List.cons 0) hds⟩
    · exact ⟨0, d, ds, hd, if_neg hd, rfl⟩

theorem withoutLeadingZeros_replicate_zero (d : Nat) : withoutLeadingZeros (List.replicate d 0) = [0] := by
  induction d with
  | zero => rfl
  | succ d ih => exact ih

/-! ### Tokens -/

theorem token_of_fixed {p : Params} (h : p.tokenMode = .fixed) (v : Word) :
    token p v = (hexDigits (2 * p.wordBytes.count) v.toNat).map hexChar := by
  simp only [token, h]

theorem token_of_minimal {p : Params} (h : p.tokenMode = .minimal) (v : Word) :
    token p v = (withoutLeadingZeros (hexDigits (2 * p.wordBytes.count) v.toNat)).map hexChar := by
  simp only [token, h]

theorem token_length_of_fixed {p : Params} (h : p.tokenMode = .fixed) (v : Word) :
    (token p v).length = 2 * p.wordBytes.count := by
  rw [token_of_fixed h, List.length_map, hexDigits_length]

/-- The words of `WORD_BITS` bits are the numbers of `2 * WORD_BYTES` hexadecimal digits. -/
theorem pow_wordBits_eq (p : Params) : 2 ^ p.wordBits = 16 ^ (2 * p.wordBytes.count) := by
  rw [Params.wordBits, show (16 : Nat) = 2 ^ 4 from rfl, ← Nat.pow_mul, ← Nat.mul_assoc]

theorem exists_digit_ne_zero {p : Params} {v : Word} (hv : v.toNat < 2 ^ p.wordBits) (h0 : v ≠ 0) :
    ∃ x ∈ hexDigits (2 * p.wordBytes.count) v.toNat, x ≠ 0 := by
  by_contra hall
  push Not at hall
  have hmod := mod_eq_zero_of_hexDigits hall
  rw [← pow_wordBits_eq, Nat.mod_eq_of_lt hv] at hmod
  exact toNat_ne_zero h0 hmod

/-- Settles O39: both branches of `hexChar` stay below 2^8. -/
theorem digitBytesAreUppercaseHex : Obligations.DigitBytesAreUppercaseHex := by
  refine fun n hn => ⟨fun h9 => ?decimal, fun h10 => ?letter⟩
  case decimal => rw [hexChar, if_pos h9, BitVec.toNat_ofNat, Nat.mod_eq_of_lt (by omega)]
  case letter => rw [hexChar, if_neg (by omega), BitVec.toNat_ofNat, Nat.mod_eq_of_lt (by omega)]

/-- No other digit has the byte of 0. -/
theorem hexChar_ne_zero_digit {n : Nat} (hn : n < 16) (h0 : n ≠ 0) : hexChar n ≠ 0x30 := fun h => by
  obtain ⟨hdecimal, hletter⟩ := digitBytesAreUppercaseHex n (Nat.le_of_lt_succ hn)
  rw [h] at hdecimal hletter
  have h30 : (0x30 : Byte).toNat = 0x30 := rfl
  omega

/-- Settles O37: the digits one by one (`hexDigits_getElem?`), each a field of four bits. -/
theorem fixedTokensAreAllTheDigits : Obligations.FixedTokensAreAllTheDigits := by
  refine fun p v h => ⟨token_length_of_fixed h v, fun j hj => ?_⟩
  have hdigit (k : Nat) : (v.extractLsb' (4 * k) 4).toNat = v.toNat / 16 ^ k % 16 :=
    (extractLsb'_toNat_eq v (4 * k) 4).trans (congrArg (v.toNat / · % 16) (Nat.pow_mul 2 4 k))
  rw [token_of_fixed h, List.getElem?_map, hexDigits_getElem? _ hj, hdigit, Option.map_some]

/-- Settles O38: the word 0 has zeros for digits; any other has a digit that is not 0, which the dropped zeros end at
(`exists_zeros_append_withoutLeadingZeros`). -/
theorem minimalTokensDropLeadingZeros : Obligations.MinimalTokensDropLeadingZeros := by
  refine fun p v hp hv => ⟨fun h0 => ?zero, fun h0 => ?other⟩
  case zero =>
    have hdigits : hexDigits (2 * p.wordBytes.count) v.toNat = List.replicate (2 * p.wordBytes.count) 0 := by
      rw [h0]
      exact hexDigits_zero _
    rw [token_of_minimal hp, hdigits, withoutLeadingZeros_replicate_zero]
    rfl
  case other =>
    obtain ⟨n, y, ys, hy, hw, hds⟩ := exists_zeros_append_withoutLeadingZeros (exists_digit_ne_zero hv h0)
    have hlt : y < 16 := lt_of_mem_hexDigits (d := 2 * p.wordBytes.count) (v := v.toNat) (by simp [hds])
    rw [token_of_minimal hp, token_of_fixed (p := { p with tokenMode := .fixed }) rfl, hw, hds, List.map_append,
      List.map_replicate, List.map_cons]
    refine ⟨⟨n, rfl⟩, ?_, List.cons_ne_nil _ _⟩
    rw [List.head?_cons, ne_eq, Option.some_inj]
    exact hexChar_ne_zero_digit hlt hy

end Sys2Proof.Machine
end

section
/-! Proofs for one step of FILLZ (43_bulk.md R170) and of EXPORT (R175, R182, R184): the cases of `ExecCase`, with what the
step's memory access gives. -/

namespace Sys2Proof.Machine

/-- With CONFIGURED set, a bulk command is not rejected at its start. -/
theorem State.not_rejectedAtStart {s : State} (hc : s.status.configured = true) : s.rejectedAtStart = false :=
  s.rejectedAtStart_eq_false_iff.mpr fun _ => hc

/-! ### FILLZ -/

/-- A byte-exact write of 0 leaves 0 in each byte of the word. -/
theorem State.memWrite_zero_byte {s : State} (hm : s.mem.wf) {a x : Word} (he : s.byteExact a = true)
    (hx : inBytes a s.wordBytes x) : (s.memWrite a 0).byteAt x = 0 := by
  rw [s.memWrite_byte hm a 0 x he hx, BitVec.ofNat_eq_ofNat, BitVec.toNat_ofNat, Nat.zero_mod, Nat.zero_div]
  rfl

/-- The `k`-th byte of the word at `a` is one of its bytes. -/
theorem State.inBytes_add (s : State) (a : Word) {k : Nat} (hk : k < s.wordBytes) :
    inBytes a s.wordBytes (a + BitVec.ofNat 32 k) := by
  have hle := s.wordBytes_le
  rwa [inBytes, add_sub_toNat a k (by omega)]

/-- The last slot is recognised by its number, before the count is cut to 33 bits as well as after. -/
theorem succ_toNat_eq_iff {i : BitVec 33} {c : Word} (hc : 0 < c.toNat) :
    (i + 1).toNat = c.toNat ↔ i.toNat + 1 = c.toNat := by
  bv_omega

/-- Settles O34: the cases `ExecCase.fills` and `ExecCase.fillsLast`, and the bytes of a write of 0. -/
theorem fillzZeroesOneSlotPerStep : Obligations.FillzZeroesOneSlotPerStep := by
  refine ⟨decode_encode .fillz, fun s hm hc hpos => ?_⟩
  have hr := State.not_rejectedAtStart hc
  have hzero (he : s.byteExact s.bulkAddr = true) (k : Nat) (hk : k < s.wordBytes) :=
    State.memWrite_zero_byte hm he (s.inBytes_add s.bulkAddr hk)
  have hframe := s.memWrite_memFrame hm s.bulkAddr 0
  by_cases hlast : s.seq.i.toNat + 1 = s.regs.capacity.toNat
  · exact ⟨_, (ExecCase.fillsLast hr ((succ_toNat_eq_iff hpos).mpr hlast)).exec_eq,
      fun h => absurd hlast h, fun _ => rfl, hzero, hframe⟩
  · exact ⟨_, (ExecCase.fills hr (mt (succ_toNat_eq_iff hpos).mp hlast)).exec_eq,
      fun _ => rfl, fun h => absurd h hlast, hzero, hframe⟩

/-! ### EXPORT -/

/-- Settles O40: the case `ExecCase.exportReads`, with each of the three things a read can be. -/
theorem exportReadsASlotThenQueuesItsToken : Obligations.ExportReadsASlotThenQueuesItsToken := by
  refine ⟨decode_encode .exportText, fun s hc hb hi => ?_⟩
  have hread := (ExecCase.exportReads (State.not_rejectedAtStart hc) hb hi).exec_eq
  refine ⟨fun hw he => ?exact, fun hdraw => ⟨_, s.memRead_lt s.bulkAddr, ?draw⟩⟩
  case exact =>
    rw [hread, State.memRead_of_byteExact hw he]
    rfl
  case draw =>
    rw [hread]
    rcases hw : s.inWindow s.bulkAddr with _ | _
    · rw [State.memRead_of_outside hw]
      rfl
    · have he : s.byteExact s.bulkAddr = false := hdraw.resolve_left (by simp [hw])
      rw [State.memRead_of_misaligned hw he]
      rfl

/-- Settles O41: the cases `ExecCase.exportSends` and `ExecCase.exportEnds`; the sample is the tick's. -/
theorem exportSendsAByteAndEndsThePass : Obligations.ExportSendsAByteAndEndsThePass := by
  refine fun s b rest answers hb ha => ⟨fun hmore => ?sends, fun ⟨hrest, hi⟩ => ?ends⟩
  case sends => exact (ExecCase.exportSends b rest answers hb ha (not_and_or.mpr hmore)).exec_eq
  case ends => exact ⟨_, truncTo_lt _ _, (ExecCase.exportEnds b answers (hrest ▸ hb) ha hi).exec_eq⟩

/-- Settles O42: the case `ExecCase.exportFails`. -/
theorem exportFailsAtOnce : Obligations.ExportFailsAtOnce :=
  fun _ b rest answers hb ha => (ExecCase.exportFails b rest answers hb ha).exec_eq

end Sys2Proof.Machine
end

section
/-! Proofs for a FILLZ from its start to its completion (43_bulk.md R170, R171): what the block and the memory are like after
`n` steps of the pass, by induction on them, and the last step. -/

namespace Sys2Proof.Machine

/-- One step of the sequencer after a run of them. -/
theorem State.sequencerSteps_succ {n : Nat} {s t u : State} (ht : State.sequencerSteps n s = .next t)
    (hu : t.sequencerStep = .next u) : State.sequencerSteps (n + 1) s = .next u := by
  rw [State.sequencerSteps_add n 1 s t ht]
  simp only [State.sequencerSteps, hu]

/-- A slot's number is counted exactly: no number up to CAPACITY is cut. -/
theorem ofNat_toNat_of_le {n : Nat} {c : Word} (h : n ≤ c.toNat) : (BitVec.ofNat 33 n).toNat = n := by
  have hlt := c.isLt
  exact Nat.mod_eq_of_lt (by omega)

/-! ### Inside the pass -/

/-- The block in a pass of FILLZ begun in `s`, with `n` slots counted and the memory and the draws taken as they have become. -/
def State.fillzAt (s : State) (n : Nat) (m : Memory) (d : Nat) : State :=
  { s with mem := m, draws := d, seq := { s.seq with i := BitVec.ofNat 33 n } }

/-- The block after a pass of FILLZ begun in `s`. -/
def State.fillzDone (s : State) (m : Memory) (d : Nat) : State :=
  { s with
    mem := m
    draws := d
    regs := { s.regs with cursor := 0 }
    status := { s.status with busy := false, err := .ok }
    seq := { s.seq with i := BitVec.ofNat 33 s.regs.capacity.toNat, phase := .idle } }

/-- The memory `m` is that of `s` with 0 written to slots 0 to `n - 1`. -/
structure State.Zeroed (s : State) (n : Nat) (m : Memory) : Prop where
  wf : m.wf
  frame : ∀ x : Word, (∀ i, i < n → ¬ s.touched (s.addrOf i) x) → m.byte x = s.byteAt x
  zero : (∀ i, i < n → s.byteExact (s.addrOf i) = true) →
    ∀ (i : Nat) (x : Word), i < n → inBytes (s.addrOf i) s.wordBytes x → m.byte x = 0

theorem State.zeroed_zero {s : State} (hm : s.mem.wf) : s.Zeroed 0 s.mem :=
  ⟨hm, fun _ _ => rfl, fun _ i _ hi => absurd hi (Nat.not_lt_zero i)⟩

/-- Writing 0 to slot `n` zeroes it, and keeps the zeros of the slots before it, also where they overlap it. -/
theorem State.Zeroed.write {s : State} {n : Nat} {m : Memory} (h : s.Zeroed n m) (d : Nat) :
    s.Zeroed (n + 1) ((s.fillzAt n m d).memWrite (s.addrOf n) 0).mem where
  wf := (s.fillzAt n m d).memWrite_wf h.wf _ _
  frame x hx := ((s.fillzAt n m d).memWrite_memFrame h.wf _ _ x (hx n n.lt_succ_self)).trans
    (h.frame x fun i hi => hx i (Nat.lt_succ_of_lt hi))
  zero he i x hi hx := by
    have hn : (s.fillzAt n m d).byteExact (s.addrOf n) = true := he n n.lt_succ_self
    by_cases hxn : inBytes (s.addrOf n) s.wordBytes x
    · exact State.memWrite_zero_byte (s := s.fillzAt n m d) h.wf hn hxn
    · have hlt : i < n := Nat.lt_of_le_of_ne (Nat.le_of_lt_succ hi) fun hin => hxn (hin ▸ hx)
      have hkept := (s.fillzAt n m d).memWrite_memFrame h.wf (s.addrOf n) 0 x (by rwa [State.touched, if_pos hn])
      exact hkept.trans (h.zero (fun j hj => he j (Nat.lt_succ_of_lt hj)) i x hlt hx)

section

variable {s : State} {n : Nat} (m : Memory) (d : Nat)

theorem State.fillzAt_bulkAddr (hn : n ≤ s.regs.capacity.toNat) : (s.fillzAt n m d).bulkAddr = s.addrOf n :=
  congrArg s.addrOf (ofNat_toNat_of_le hn)

theorem State.fillzAt_next_i (hn : n < s.regs.capacity.toNat) :
    (s.fillzAt n m d).seq.i + 1 = BitVec.ofNat 33 (n + 1) ∧ ((s.fillzAt n m d).seq.i + 1).toNat = n + 1 := by
  have hi : (s.fillzAt n m d).seq.i + 1 = BitVec.ofNat 33 (n + 1) := (BitVec.ofNat_add n 1).symm
  exact ⟨hi, hi ▸ ofNat_toNat_of_le hn⟩

/-- A step of the pass before the last: slot `n` is zeroed and counted. -/
theorem State.fillzAt_step (hs : s.starts .fillz) (hn : n + 1 < s.regs.capacity.toNat) :
    (s.fillzAt n m d).sequencerStep = .next (s.fillzAt (n + 1)
      ((s.fillzAt n m d).memWrite (s.addrOf n) 0).mem ((s.fillzAt n m d).memWrite (s.addrOf n) 0).draws) := by
  obtain ⟨hp, hd, -, -, hc, -⟩ := hs
  obtain ⟨hi, hi'⟩ := State.fillzAt_next_i (s := s) m d (Nat.lt_of_succ_lt hn)
  have hmore : ((s.fillzAt n m d).seq.i + 1).toNat ≠ s.regs.capacity.toNat := by omega
  have hfill := (ExecCase.fills (s := s.fillzAt n m d) (State.not_rejectedAtStart hc) hmore).exec_eq
  rw [State.fillzAt_bulkAddr m d (by omega), hi] at hfill
  exact ((s.fillzAt n m d).sequencerStep_command .fillz hp hd).trans hfill

/-- The last step of the pass: the last slot is zeroed, and the command completes. -/
theorem State.fillzAt_lastStep (hs : s.starts .fillz) (hn : n + 1 = s.regs.capacity.toNat) :
    (s.fillzAt n m d).sequencerStep = .next (s.fillzDone
      ((s.fillzAt n m d).memWrite (s.addrOf n) 0).mem ((s.fillzAt n m d).memWrite (s.addrOf n) 0).draws) := by
  obtain ⟨hp, hd, -, -, hc, -⟩ := hs
  obtain ⟨hi, hi'⟩ := State.fillzAt_next_i (s := s) (n := n) m d (by omega)
  have hfill := (ExecCase.fillsLast (s := s.fillzAt n m d) (State.not_rejectedAtStart hc) (hi'.trans hn)).exec_eq
  rw [State.fillzAt_bulkAddr m d (by omega), hi, hn] at hfill
  exact ((s.fillzAt n m d).sequencerStep_command .fillz hp hd).trans hfill

end

/-- After `n` steps of FILLZ, fewer than CAPACITY, `n` slots are zeroed and counted and the command still runs. -/
theorem State.fillz_steps {s : State} (hm : s.mem.wf) (hs : s.starts .fillz) {n : Nat} (hn : n < s.regs.capacity.toNat) :
    ∃ m d, State.sequencerSteps n s = .next (s.fillzAt n m d) ∧ s.Zeroed n m := by
  induction n with
  | zero =>
    obtain ⟨-, -, hi, -⟩ := hs
    have hstart : s = s.fillzAt 0 s.mem s.draws := by rw [State.fillzAt, show BitVec.ofNat 33 0 = s.seq.i from hi.symm]
    exact ⟨s.mem, s.draws, congrArg _ hstart, State.zeroed_zero hm⟩
  | succ n ih =>
    obtain ⟨m, d, hrun, hz⟩ := ih (Nat.lt_of_succ_lt hn)
    exact ⟨_, _, State.sequencerSteps_succ hrun (State.fillzAt_step m d hs hn), hz.write d⟩

/-! ### After the pass -/

/-- A slot whose bytes are 0 holds the word 0. -/
theorem State.slotWord_eq_zero {s : State} {i : Nat}
    (h : ∀ x : Word, inBytes (s.addrOf i) s.wordBytes x → s.byteAt x = 0) : s.slotWord i = 0 := by
  have hload : s.mem.load (s.addrOf i) s.wordBytes = (0 : Word).toNat % 2 ^ s.params.wordBits :=
    s.load_of_bytes s.mem _ 0 fun k hk => (h _ (s.inBytes_add _ hk)).trans (by simp)
  rw [State.slotWord, hload]
  simp

/-- After the pass, READI of a byte-exact slot inside the window gives 0. -/
theorem State.fillzDone_readi {s : State} {i : Nat} (m : Memory) (d : Nat) (hc : s.status.configured = true)
    (hw : s.inWindow (s.addrOf i) = true) (he : s.byteExact (s.addrOf i) = true) (hi : i < s.regs.capacity.toNat)
    (hz : ∀ x : Word, inBytes (s.addrOf i) s.wordBytes x → m.byte x = 0) :
    ∃ u, (s.fillzDone m d).call (encode .readi) (BitVec.ofNat 32 i) = .next u ∧
      u.regs.result = 0 ∧ u.status.err = .ok := by
  have hindex : (BitVec.ofNat 32 i).toNat = i := Nat.mod_eq_of_lt (hi.trans s.regs.capacity.isLt)
  obtain ⟨u, hu, hresult, herr, -⟩ := State.call_readi (s := s.fillzDone m d) (i := BitVec.ofNat 32 i) hc rfl
    (by rw [hindex]; exact hw) (by rw [hindex]; exact he)
  have hword : (s.fillzDone m d).slotWord i = 0 := State.slotWord_eq_zero hz
  rw [hindex, hword] at hresult
  exact ⟨u, hu, hresult, herr⟩

/-- Settles O35: `State.fillz_steps` up to the last slot, then `State.fillzAt_lastStep`; the bytes are those of `State.Zeroed`. -/
theorem fillzZeroesTheWindow : Obligations.FillzZeroesTheWindow := by
  intro s hm hs
  have ⟨_, _, _, _, hc, hpos⟩ := hs
  obtain ⟨n, hn⟩ : ∃ n, n + 1 = s.regs.capacity.toNat := ⟨_, Nat.sub_add_cancel hpos⟩
  obtain ⟨m, d, hrun, hz⟩ := State.fillz_steps hm hs (n := n) (by omega)
  have hlast := State.sequencerSteps_succ hrun (State.fillzAt_lastStep m d hs hn)
  have hz' := hz.write d
  rw [hn] at hlast hz'
  refine ⟨_, hlast, rfl, rfl, rfl, rfl, rfl, hz'.frame, fun he => ⟨fun i k hi hk => ?bytes, fun hw i hi => ?word⟩⟩
  case bytes => exact hz'.zero he i _ hi (s.inBytes_add _ hk)
  case word =>
    exact State.fillzDone_readi _ _ hc (slotsLieInsideTheWindow s i hw hi) (he i hi) hi (hz'.zero he i · hi)

end Sys2Proof.Machine
end

section
/-! Proofs for an EXPORT from its start to its completion (43_bulk.md R175, R181 to R183): by induction on the bytes accepted, the
pass comes to offer each byte of the text in order; what the sink answers to the last one, or to any one, ends it. -/

namespace Sys2Proof.Machine

/-! ### The text -/

/-- The text of the slots from `i` on. -/
def State.textFrom (s : State) (i : Nat) : List Byte :=
  (List.range' i (s.regs.capacity.toNat - i)).flatMap fun j => tokenText s.params (s.slotWord j)

theorem State.textFrom_zero (s : State) : s.textFrom 0 = s.exportedText := by
  rw [State.textFrom, State.exportedText, List.range_eq_range', Nat.sub_zero]

theorem State.textFrom_of_lt {s : State} {i : Nat} (hi : i < s.regs.capacity.toNat) :
    s.textFrom i = tokenText s.params (s.slotWord i) ++ s.textFrom (i + 1) := by
  have hcount : s.regs.capacity.toNat - i = s.regs.capacity.toNat - (i + 1) + 1 := by omega
  rw [State.textFrom, hcount, List.range'_succ, List.flatMap_cons, State.textFrom]

theorem State.textFrom_eq_nil_iff {s : State} {i : Nat} : s.textFrom i = [] ↔ s.regs.capacity.toNat ≤ i := by
  rcases Nat.lt_or_ge i s.regs.capacity.toNat with hi | hi
  · simp [State.textFrom_of_lt hi, tokenText_ne_nil, hi]
  · simp [State.textFrom, Nat.sub_eq_zero_of_le hi, hi]

theorem State.exportedText_length_of_fixed {s : State} (h : s.params.tokenMode = .fixed) :
    s.exportedText.length = s.regs.capacity.toNat * (2 * s.wordBytes + 1) := by
  simp [State.exportedText, tokenText, token_length_of_fixed h, List.length_flatMap, State.wordBytes]

/-! ### Inside the pass -/

/-- The block in a pass of EXPORT begun in `s`: `i` slots read, the last one's word `w`, the bytes of `queue` to offer, those of
`sent` accepted, and `answers` what the sink will still answer. -/
def State.exportAt (s : State) (i : Nat) (w : Word) (queue sent : List Byte) (answers : List SinkAnswer) : State :=
  { s with
    seq := { s.seq with i := BitVec.ofNat 33 i, word := w, bytes := queue }
    sink := { stream := s.sink.stream ++ sent, answers := answers } }

/-- A pass of EXPORT begun in `s` comes to this point, a step for each slot read and for each byte accepted, and the text is what
is accepted, what is queued and what is still to read. -/
structure State.ExportReaches (s : State) (i : Nat) (w : Word) (queue sent : List Byte) (answers : List SinkAnswer) :
    Prop where
  slot : i ≤ s.regs.capacity.toNat
  text : s.exportedText = sent ++ (queue ++ s.textFrom i)
  run : State.sequencerSteps (i + sent.length) s = .next (s.exportAt i w queue sent answers)

section

variable {s : State} {i : Nat} {w : Word} {b : Byte} {queue rest sent : List Byte} {answers : List SinkAnswer}

/-- While EXPORT runs, a step of the sequencer is its own. -/
theorem State.exportAt_step (hs : s.starts .exportText) :
    (s.exportAt i w queue sent answers).sequencerStep = exec .exportText (s.exportAt i w queue sent answers) := by
  obtain ⟨hp, hd, -⟩ := hs
  exact (s.exportAt i w queue sent answers).sequencerStep_command .exportText hp hd

theorem State.ExportReaches.start (hs : s.starts .exportText) (ha : s.sink.answers = answers) :
    s.ExportReaches 0 s.seq.word [] [] answers := by
  have ⟨_, _, hi, hb, _, _⟩ := hs
  refine ⟨Nat.zero_le _, s.textFrom_zero.symm, congrArg Host.Outcome.next ?_⟩
  rw [State.exportAt, show BitVec.ofNat 33 0 = s.seq.i from hi.symm, ← ha, List.append_nil, ← hb]

/-- With nothing queued and a slot left, the next slot is read and its text queued. -/
theorem State.ExportReaches.read (h : s.ExportReaches i w [] sent answers) (hs : s.starts .exportText)
    (hw : s.windowInContract) (he : s.slotsByteExact) (hi : i < s.regs.capacity.toNat) :
    s.ExportReaches (i + 1) (s.slotWord i) (tokenText s.params (s.slotWord i)) sent answers := by
  have ⟨_, _, _, _, hc, _⟩ := hs
  have hcount : (s.exportAt i w [] sent answers).seq.i.toNat = i := ofNat_toNat_of_le h.slot
  have haddr : (s.exportAt i w [] sent answers).bulkAddr = s.addrOf i := congrArg s.addrOf hcount
  have hnext : (s.exportAt i w [] sent answers).seq.i + 1 = BitVec.ofNat 33 (i + 1) := (BitVec.ofNat_add i 1).symm
  obtain ⟨-, hreads⟩ := exportReadsASlotThenQueuesItsToken
  obtain ⟨hread, -⟩ := hreads (s.exportAt i w [] sent answers) hc rfl (by rwa [hcount])
  rw [haddr, hcount, hnext] at hread
  have hstep := hread (slotsLieInsideTheWindow s i hw hi) (he i hi)
  refine ⟨hi, h.text.trans (congrArg _ (State.textFrom_of_lt hi)), ?_⟩
  rw [Nat.add_right_comm]
  exact State.sequencerSteps_succ h.run ((State.exportAt_step hs).trans hstep)

/-- The next byte is accepted, and the text does not end with it. -/
theorem State.ExportReaches.send (h : s.ExportReaches i w (b :: rest) sent (.accept :: answers))
    (hs : s.starts .exportText) (hmore : rest ≠ [] ∨ i < s.regs.capacity.toNat) :
    s.ExportReaches i w rest (sent ++ [b]) answers := by
  have hcount : (s.exportAt i w (b :: rest) sent (.accept :: answers)).seq.i.toNat = i := ofNat_toNat_of_le h.slot
  obtain ⟨hsends, -⟩ := exportSendsAByteAndEndsThePass _ b rest answers
    (rfl : (s.exportAt i w (b :: rest) sent (.accept :: answers)).seq.bytes = b :: rest) rfl
  have hstep := hsends (hmore.imp_right fun hi => by rw [hcount]; exact hi.ne)
  refine ⟨h.slot, by rw [h.text, List.append_assoc]; rfl, ?_⟩
  rw [List.length_append, List.length_singleton, ← Nat.add_assoc]
  refine State.sequencerSteps_succ h.run ((State.exportAt_step hs).trans (hstep.trans ?_))
  simp only [State.exportAt, List.append_assoc]

/-- While the text is not all accepted, the pass comes to offer a byte: the next one queued, or the first of the next slot's. -/
theorem State.ExportReaches.offers (h : s.ExportReaches i w queue sent answers) (hs : s.starts .exportText)
    (hw : s.windowInContract) (he : s.slotsByteExact) (hn : sent.length < s.exportedText.length) :
    ∃ i w b rest, s.ExportReaches i w (b :: rest) sent answers := by
  rcases queue with _ | ⟨b, rest⟩
  · have htext : s.textFrom i ≠ [] := fun hnil => by simp [h.text, hnil] at hn
    have hread := h.read hs hw he (Nat.lt_of_not_le (mt State.textFrom_eq_nil_iff.mpr htext))
    obtain ⟨b, rest, hq⟩ := List.exists_cons_of_ne_nil (tokenText_ne_nil s.params (s.slotWord i))
    exact ⟨_, _, b, rest, hq ▸ hread⟩
  · exact ⟨i, w, b, rest, h⟩

end

/-- After the sink has accepted any `n` bytes of the text but all, the pass offers the next. -/
theorem State.export_offers {s : State} (hs : s.starts .exportText) (hw : s.windowInContract) (he : s.slotsByteExact)
    {n : Nat} (hn : n < s.exportedText.length) {answers : List SinkAnswer}
    (ha : s.sink.answers = List.replicate n .accept ++ answers) :
    ∃ sent i w b rest, sent.length = n ∧ s.ExportReaches i w (b :: rest) sent answers := by
  induction n generalizing answers with
  | zero =>
    obtain ⟨i, w, b, rest, h⟩ := (State.ExportReaches.start hs ha).offers hs hw he hn
    exact ⟨[], i, w, b, rest, rfl, h⟩
  | succ n ih =>
    obtain ⟨sent, i, w, b, rest, hlen, h⟩ := ih (answers := .accept :: answers) (Nat.lt_of_succ_lt hn) (by
      rw [ha, List.replicate_succ', List.append_assoc]; rfl)
    have hmore : rest ≠ [] ∨ i < s.regs.capacity.toNat := by
      by_contra hnone
      push Not at hnone
      rw [h.text, hnone.1, State.textFrom_eq_nil_iff.mpr hnone.2] at hn
      simp [hlen] at hn
    have hlen' : (sent ++ [b]).length = n + 1 := by rw [List.length_append, hlen, List.length_singleton]
    obtain ⟨i', w', b', rest', h'⟩ := (h.send hs hmore).offers hs hw he (hlen' ▸ hn)
    exact ⟨sent ++ [b], i', w', b', rest', hlen', h'⟩

/-! ### The end of the pass -/

/-- Settles O44: the pass offers the last byte (`State.export_offers`), which leaves nothing queued and no slot, so that its
acceptance ends the pass. -/
theorem exportEmitsTheWindow : Obligations.ExportEmitsTheWindow := by
  intro s answers hs hw he ha
  have ⟨_, _, _, _, _, hpos⟩ := hs
  have htext : s.exportedText ≠ [] := by
    rw [← s.textFrom_zero]
    exact mt State.textFrom_eq_nil_iff.mp (Nat.not_le.mpr hpos)
  obtain ⟨n, hn⟩ : ∃ n, n + 1 = s.exportedText.length := ⟨_, Nat.sub_add_cancel (List.length_pos_iff.mpr htext)⟩
  rw [← hn, List.replicate_succ', List.append_assoc] at ha
  obtain ⟨sent, i, w, b, rest, hlen, h⟩ := State.export_offers hs hw he (n := n) (by omega) ha
  have hlast : rest = [] ∧ s.textFrom i = [] := by
    have hcount := congrArg List.length h.text
    simp only [List.length_append, List.length_cons] at hcount
    exact ⟨List.length_eq_zero_iff.mp (by omega), List.length_eq_zero_iff.mp (by omega)⟩
  obtain ⟨rfl, hnil⟩ := hlast
  obtain rfl : i = s.regs.capacity.toNat := h.slot.antisymm (State.textFrom_eq_nil_iff.mp hnil)
  have hsent : s.exportedText = sent ++ [b] := by rw [h.text, hnil]; rfl
  obtain ⟨-, hends⟩ := exportSendsAByteAndEndsThePass _ b [] answers
    (rfl : (s.exportAt s.regs.capacity.toNat w [b] sent (.accept :: answers)).seq.bytes = [b]) rfl
  obtain ⟨t1, -, hend⟩ := hends ⟨rfl, ofNat_toNat_of_le le_rfl⟩
  have hrun := State.sequencerSteps_succ h.run ((State.exportAt_step hs).trans hend)
  rw [hlen, Nat.add_assoc, hn] at hrun
  refine ⟨_, hrun, ?_, rfl, rfl, rfl, truncTo_lt _ _, rfl, rfl, State.exportedText_length_of_fixed⟩
  rw [hsent]
  simp [State.exportAt]

/-- Settles O45: the pass offers byte `n` with the `n` before it sent (`State.export_offers`), and its failure ends it. -/
theorem failedExportKeepsTheAcceptedPrefix : Obligations.FailedExportKeepsTheAcceptedPrefix := by
  intro s n answers hs hw he hn ha
  obtain ⟨sent, i, w, b, rest, hlen, h⟩ := State.export_offers hs hw he hn ha
  have hfail := exportFailsAtOnce (s.exportAt i w (b :: rest) sent (.fail :: answers)) b rest answers rfl rfl
  have hsent : s.exportedText.take n = sent := by rw [h.text, List.take_left' hlen]
  have hslot := h.slot
  refine ⟨i + sent.length + 1, _, by omega, State.sequencerSteps_succ h.run ((State.exportAt_step hs).trans hfail), ?_⟩
  rw [hsent]
  exact ⟨rfl, rfl, rfl, rfl⟩

end Sys2Proof.Machine
end

section
/-! DURATION is not read by the sequencer (43_bulk.md R184; 60_exceptions.md R216): each case of a step of a command is the same
case under another DURATION, to a state that differs in DURATION at most. -/

namespace Sys2Proof.Machine

/-- The state with another DURATION. -/
def State.withDuration (d : Word) (s : State) : State := { s with regs := { s.regs with duration := d } }

variable (s : State) (d : Word)

theorem State.memWrite_withDuration (a v : Word) : (s.withDuration d).memWrite a v = (s.memWrite a v).withDuration d := by
  rw [State.memWrite, State.memWrite, apply_ite (State.withDuration d)]
  rfl

theorem State.memRead_withDuration (a : Word) :
    (s.withDuration d).memRead a = ((s.memRead a).1, (s.memRead a).2.withDuration d) := by
  rcases s.memRead_cases a with ⟨hw, he, h⟩ | ⟨hw, he, h⟩ | ⟨hw, h⟩ <;> rw [h]
  · exact State.memRead_of_byteExact hw he
  · exact State.memRead_of_misaligned hw he
  · exact State.memRead_of_outside hw

variable {s}

/-- Each case of a step is the same case under another DURATION; CONFIG and the last step of EXPORT write DURATION, and every
other step leaves it. -/
theorem ExecCase.withDuration {t : State} {i : Instr} (h : ExecCase s i t) :
    ∃ t', ExecCase (s.withDuration d) i t' ∧ t'.withDuration 0 = t.withDuration 0 := by
  have hwrite := s.memWrite_withDuration d
  have hread := s.memRead_withDuration d
  cases h with
  | rejected _ hi hc hf => exact ⟨_, .rejected i hi hc hf, rfl⟩
  | configFails ha => exact ⟨_, .configFails ha, rfl⟩
  | configInstalls ha => exact ⟨_, .configInstalls ha, rfl⟩
  | writes hc => exact ⟨_, .writes hc, by rw [hwrite]; rfl⟩
  | reads _ a hc hi => exact ⟨_, .reads i a hc hi, by rw [hread]; rfl⟩
  | outOfRange hc hr => exact ⟨_, .outOfRange hc hr, rfl⟩
  | fills hr hl => exact ⟨_, .fills hr hl, by rw [hwrite]; rfl⟩
  | fillsLast hr hl => exact ⟨_, .fillsLast hr hl, by rw [hwrite]; rfl⟩
  | exportReads hr hb hl => exact ⟨_, .exportReads hr hb hl, by rw [hread]; rfl⟩
  | exportWaits b rest hb ha => exact ⟨_, .exportWaits b rest hb ha, rfl⟩
  | exportFails b rest answers hb ha => exact ⟨_, .exportFails b rest answers hb ha, rfl⟩
  | exportSends b rest answers hb ha hl => exact ⟨_, .exportSends b rest answers hb ha hl, rfl⟩
  | exportEnds b answers hb ha hl => exact ⟨_, .exportEnds b answers hb ha hl, rfl⟩

variable (s)

theorem exec_withDuration (i : Instr) :
    mapNext (State.withDuration 0) (exec i (s.withDuration d)) = mapNext (State.withDuration 0) (exec i s) := by
  rcases exec_total i s with ⟨t, ht⟩ | ⟨rfl, hr, hb, hle, hfault⟩
  · obtain ⟨t', hc, heq⟩ := (exec_cases ht).withDuration d
    rw [ht, hc.exec_eq]
    exact congrArg Host.Outcome.next heq
  · rw [hfault, exec_exportText_slot (s := s.withDuration d) hr hb]
    exact congrArg _ (if_neg (Nat.not_lt.mpr hle))

/-- Settles O54: a command by `exec_withDuration`; an idle sequencer and an illegal word leave DURATION. -/
theorem noRuleReadsTheDuration : Obligations.NoRuleReadsTheDuration := by
  intro s d
  show mapNext (State.withDuration 0) (s.withDuration d).sequencerStep = mapNext (State.withDuration 0) s.sequencerStep
  rcases hp : s.seq.phase with _ | _
  · simp only [State.sequencerStep, State.withDuration, hp, mapNext]
  · rcases hd : decode s.lat.op with i | why
    · rw [s.sequencerStep_command i hp hd, (s.withDuration d).sequencerStep_command i hp hd]
      exact exec_withDuration s d i
    · rw [State.sequencerStep_illegal hp hd, State.sequencerStep_illegal (s := s.withDuration d) hp hd]
      rfl

end Sys2Proof.Machine
end

section
/-! Proofs for the error codes (60_exceptions.md R201, R202) and for the stops (R203, R206; 40_host_port.md R110): the code of
a completion by the cases of `ExecCase`, and the one access a step refuses. -/

namespace Sys2Proof.Machine

/-! ### Where a running command has an instance -/

/-- A running command that the check of the first step lets through has an instance. -/
theorem State.configured_of_not_rejected {s : State} (hrun : s.runInRange) (hr : s.rejectedAtStart = false) :
    s.status.configured = true := by
  rcases hrun with hf | ⟨hc, -⟩
  · exact s.rejectedAtStart_eq_false_iff.mp hr hf
  · exact hc

/-- A command with bytes queued has begun, so it is not rejected. -/
theorem State.rejectedAtStart_of_queued {s : State} {b : Byte} {rest : List Byte} (hb : s.seq.bytes = b :: rest) :
    s.rejectedAtStart = false := by
  simp [State.rejectedAtStart, State.firstStep, hb]

/-! ### The code of a completion -/

/-- A READC that reads has its index below CAPACITY (42_word_access.md R160). -/
theorem State.index_lt_of_readc_reads {s : State} {i : Instr} {a : Word}
    (h : (i = .readi ∧ a = s.indexAddr) ∨ (i = .reado ∧ a = s.offsetAddr) ∨
      (i = .readc ∧ a = s.indexAddr ∧ s.indexInRange = true)) (hi : i = .readc) :
    s.lat.a.toNat < s.regs.capacity.toNat := by
  rcases h with ⟨rfl, -⟩ | ⟨rfl, -⟩ | ⟨-, -, hlt⟩
  · cases hi
  · cases hi
  · exact of_decide_eq_true hlt

/-- The code of a command's completing step: the first error that applies, in the rule's order (60_exceptions.md R202). -/
theorem ExecCase.err_of_completion {s t : State} {i : Instr} (h : ExecCase s i t) (hrun : s.runInRange)
    (hp : s.seq.phase = .run) (hidle : t.seq.phase = .idle) :
    t.status.err =
      if i ≠ .config ∧ s.status.configured = false then .notConfigured
      else if i = .config ∧ s.lat.a.toNat = 0 then .invalidConfiguration
      else if i = .readc ∧ s.regs.capacity.toNat ≤ s.lat.a.toNat then .indexOutOfRange
      else if i = .exportText ∧ s.sink.answers.head? = some .fail then .exportFailed
      else .ok := by
  cases h with
  | rejected _ hi hc => simp [hi, hc]
  | configFails ha => simp [ha]
  | configInstalls ha => simp [toNat_ne_zero ha]
  | writes hc => simp [hc]
  | reads _ a hc hr => simp +contextual [hc, ne_of_reads hr, State.index_lt_of_readc_reads hr]
  | outOfRange hc hr => simpa [State.indexInRange, hc] using hr
  | fillsLast hr => simp [State.configured_of_not_rejected hrun hr]
  | exportFails _ _ _ hb ha | exportEnds _ _ hb ha =>
    have hc := State.configured_of_not_rejected hrun (State.rejectedAtStart_of_queued hb)
    simp [hc, ha]
  | fills | exportReads | exportWaits | exportSends => exact nomatch hp.symm.trans hidle

/-- Settles O9: a step that completes is the sequencer's, of an illegal word or of a command
(`ExecCase.err_of_completion`). -/
theorem completionReportsTheFirstErrorThatApplies : Obligations.CompletionReportsTheFirstErrorThatApplies := by
  rintro s t hinv h ⟨ht, hp, hidle⟩
  obtain ⟨-, hc⟩ := s.inv_iff.mp hinv
  rw [step, ht] at h
  cases sequencerStep_cases h with
  | idle hp' => exact nomatch hp.symm.trans hp'
  | illegal _ why hd =>
    rw [show decode s.lat.op = .illegal why from hd]
    rfl
  | command _ i hd _ he =>
    rw [show decode s.lat.op = .command i from hd]
    exact (exec_cases he).err_of_completion (hc.run hp) hp hidle

/-- Settles O29: with an instance each of these commands has the step its case of `ExecCase` names, and every such case but
`ExecCase.fills` reports 0; that one leaves STATUS. -/
theorem uncheckedCommandsNeverRaise : Obligations.UncheckedCommandsNeverRaise := by
  refine fun s hc => ⟨fun i hi => ?word, ?fillz⟩
  case word =>
    rcases hi with rfl | rfl | rfl
    · exact ⟨_, (ExecCase.writes hc).exec_eq, rfl, rfl⟩
    · exact ⟨_, (ExecCase.reads .readi _ hc (.inl ⟨rfl, rfl⟩)).exec_eq, rfl, rfl⟩
    · exact ⟨_, (ExecCase.reads .reado _ hc (.inr (.inl ⟨rfl, rfl⟩))).exec_eq, rfl, rfl⟩
  case fillz =>
    have hr := State.not_rejectedAtStart hc
    by_cases hlast : (s.seq.i + 1).toNat = s.regs.capacity.toNat
    · exact ⟨_, (ExecCase.fillsLast hr hlast).exec_eq, .inr ⟨rfl, rfl⟩⟩
    · exact ⟨_, (ExecCase.fills hr hlast).exec_eq, .inl rfl⟩

/-! ### The stops -/

/-- From a state of the invariant the sequencer's step never stops. -/
theorem State.sequencerStep_next_of_inv {s : State} (hinv : s.Inv) : ∃ t, s.sequencerStep = .next t := by
  rcases hp : s.seq.phase with _ | _
  · exact ⟨s, by simp only [State.sequencerStep, hp]⟩
  · rcases hd : decode s.lat.op with i | why
    · rw [s.sequencerStep_command i hp hd]
      exact exec_next_of_inv hinv hp hd
    · exact ⟨_, State.sequencerStep_illegal hp hd⟩

/-- From a state of the invariant a step stops in one way alone: the host's access is not of the admitted form and is refused
(40_host_port.md R110). -/
theorem step_next_or_refused {s : State} (hinv : s.Inv) :
    (∃ t, step s = .next t) ∨
    (step s = .refused .hostNarrow ∧ s.turn = .host ∧
      ∃ a rest, s.host.script = .access a :: rest ∧ a.wf s.params.hostBase = false) := by
  rw [step]
  rcases ht : s.turn with _ | _ | _ | _
  case host =>
    rcases hostStep_stops s.popTurn with hnext | ⟨hstop, a, rest, hs, hr⟩
    · exact .inl hnext
    · have hwf : ¬ a.wf s.params.hostBase = true := by
        rw [← accessReg_isSome_iff, show accessReg s.params.hostBase a = none from hr]
        decide
      exact .inr ⟨hstop, rfl, a, rest, hs, eq_false_of_ne_true hwf⟩
  case sequencer => exact .inl (State.sequencerStep_next_of_inv (s := s.popTurn) hinv)
  case reset => exact .inl ⟨_, rfl⟩
  case bringUp => exact .inl ⟨_, rfl⟩

/-- Settles O58: `step_next_or_refused`. -/
theorem noStepFaultsUnderTheInvariant : Obligations.NoStepFaultsUnderTheInvariant := by
  intro s hinv
  rcases step_next_or_refused hinv with ⟨t, h⟩ | ⟨h, hhost⟩
  · rw [h]
    exact ⟨nofun, nofun⟩
  · rw [h]
    exact ⟨nofun, fun _ _ => hhost⟩

end Sys2Proof.Machine
end

section
/-! Proofs for reset (70_reset_and_hazards.md R230), for a FILLZ it cuts short (R231), and for an EXPORT whose sink is silent
(R245). -/

namespace Sys2Proof.Machine

/-! ### Reset -/

theorem State.applyReset_statusWord (s : State) : statusWord s.applyReset.status = 0 :=
  show statusWord State.reset.status = 0 by decide

/-- A step of the reset input. -/
theorem step_reset {s : State} (ht : s.turn = .reset) : step s = .next s.popTurn.applyReset := by
  rw [step, ht, State.takeTurn]

/-- Settles O46: `step_reset`, whose next state `State.applyReset` writes out. -/
theorem resetClearsTheBlock : Obligations.ResetClearsTheBlock := fun s ht =>
  ⟨_, step_reset ht, rfl, s.popTurn.applyReset_statusWord, rfl, rfl, rfl, rfl, rfl, rfl, rfl⟩

/-! ### A FILLZ cut short -/

/-- Settles O36: after `n` steps the block is as `State.fillz_steps` says, and reset leaves the memory, whose bytes are those of
`State.Zeroed`. -/
theorem fillzCutShortKeepsItsPrefix : Obligations.FillzCutShortKeepsItsPrefix := by
  intro s n hm hs hn
  obtain ⟨m, d, hrun, hz⟩ := State.fillz_steps hm hs hn
  have hcount : (s.fillzAt n m d).seq.i.toNat = n := ofNat_toNat_of_le hn.le
  refine ⟨_, hrun, hcount, rfl, rfl, hz.frame, fun he i k hi hk => ?_, State.applyReset_statusWord _, rfl⟩
  exact hz.zero (fun j hj => he j (hj.trans hn)) i _ hi (s.inBytes_add _ hk)

/-! ### An EXPORT whose sink is silent -/

theorem State.awaitingSink_iff (s : State) : s.awaitingSink = true ↔
    s.seq.phase = .run ∧ decode s.lat.op = .command .exportText ∧ s.seq.bytes ≠ [] ∧ s.sink.answers = [] := by
  simp [State.awaitingSink, and_assoc]

/-- Whether EXPORT waits is read off the sequencer, the latches and the sink. -/
theorem State.awaitingSink_congr {s t : State} (hseq : t.seq = s.seq) (hlat : t.lat = s.lat) (hsink : t.sink = s.sink) :
    t.awaitingSink = s.awaitingSink := by
  rw [State.awaitingSink, hseq, hlat, hsink, State.awaitingSink]

/-- With a byte queued and no answer to come, a step of EXPORT changes nothing. -/
theorem ExecCase.eq_of_silent {s t : State} (h : ExecCase s .exportText t) (hb : s.seq.bytes ≠ [])
    (ha : s.sink.answers = []) : t = s := by
  cases h with
  | exportWaits => rfl
  | rejected _ _ _ hf => exact absurd (s.firstStep_iff.mp (hf (.inr rfl))).2 hb
  | reads _ _ _ hr => simp at hr
  | exportReads _ hb' => exact absurd hb' hb
  | exportFails _ _ _ _ ha' | exportSends _ _ _ _ ha' | exportEnds _ _ _ ha' => exact nomatch ha.symm.trans ha'

/-- While EXPORT waits, a step but reset is a write of the host, or changes nothing but the host, the schedule and bring-up. -/
theorem step_of_awaitingSink {s t : State} (hw : s.awaitingSink = true) (h : step s = .next t) (hreset : s.turn ≠ .reset) :
    (∃ agent ready, t = (s.popTurn.setHost agent).setWindowReady ready) ∨
    (∃ r d agent, s.hostWrites r d ∧ t = (s.popTurn.setHost agent).hostWrite r d) := by
  obtain ⟨hp, hd, hb, ha⟩ := s.awaitingSink_iff.mp hw
  cases move_cases h with
  | reset ht => exact absurd ht hreset
  | bringUp => exact .inl ⟨s.host, true, rfl⟩
  | hostReads _ _ agent => exact .inl ⟨agent, s.windowReady, rfl⟩
  | hostWrites r d hwrite agent => exact .inr ⟨r, d, agent, hwrite, rfl⟩
  | idle _ hp' => exact nomatch hp.symm.trans hp'
  | illegal ht _ hn => exact absurd ⟨ht, hp, hd⟩ (hn .exportText)
  | command i hr _ hc =>
    obtain ⟨-, -, hd'⟩ := hr
    obtain rfl : i = .exportText := Decoded.command.inj (hd'.symm.trans hd)
    exact .inl ⟨s.host, s.windowReady, hc.eq_of_silent hb ha⟩

/-- While BUSY, no write reaches the sequencer or the latches. -/
theorem State.hostWrite_hidden_of_busy {s : State} (hb : s.status.busy = true) (r : HostReg) (d : Word) :
    (s.hostWrite r d).seq = s.seq ∧ (s.hostWrite r d).lat = s.lat := by
  rcases s.hostWrite_cases r d with h | ⟨_, _, _, h⟩ | ⟨_, h⟩ | ⟨-, hidle, -⟩
  case inr.inr.inr => exact nomatch hb.symm.trans hidle
  all_goals rw [h]; exact ⟨rfl, rfl⟩

/-- Settles O43: the two cases of `step_of_awaitingSink`, with what a host's write can do while BUSY; a CMD write sets OVR by
`step_ovr_iff`. -/
theorem silentSinkHoldsTheExport : Obligations.SilentSinkHoldsTheExport := by
  intro s t hw hb h hreset
  have hovr (hcmd : ∃ w, s.hostWrites .cmd w) : t.status.ovr = true := (step_ovr_iff h).mpr (.inl ⟨hb, hcmd⟩)
  rcases step_of_awaitingSink hw h hreset with ⟨agent, ready, rfl⟩ | ⟨r, d, agent, -, rfl⟩
  · exact ⟨hw, hb, rfl, rfl, rfl, rfl, rfl, rfl, hovr⟩
  · obtain ⟨hseq, hlat⟩ := State.hostWrite_hidden_of_busy (s := s.popTurn.setHost agent) hb r d
    have hsink := (s.popTurn.setHost agent).hostWrite_sink r d
    obtain ⟨-, hmem, -⟩ := (s.popTurn.setHost agent).hostWrite_frame r d
    refine ⟨(State.awaitingSink_congr hseq hlat hsink).trans hw, ?busy, ?err, hseq, hlat, hsink, hmem, ?regs, hovr⟩
    case busy => simp [State.hostWrite_status, hb]
    case err => simp [State.hostWrite_status, hb]
    case regs => rw [State.hostWrite_regs]; rfl

end Sys2Proof.Machine
end
